-- ==== Sys2Proof/Word.lean ====
section
/-! DEFINITION. The two word types of the hardware (00_scope R12, R15). -/

namespace Sys2Proof

/-- An 8-bit value: every register but PC, and every memory value (R12). -/
abbrev Byte := BitVec 8

/-- A 16-bit value: an address, PC, or a sign-extended branch offset (R12, R15). `+` on it is taken modulo 65536. -/
abbrev Addr := BitVec 16

end Sys2Proof
end

