-- ==== Sys2Proof/Syntax.lean ====
section
/-! DEFINITION. The instructions: one constructor per row of spec/opcode_table.json, in the table's order. -/

namespace Sys2Proof

/-- An instruction with its operand ASSEMBLED as 30_encoding R92 says: a branch carries the 16-bit signed offset
`sext_16(off8)`, an immediate load the byte, a zero-page or absolute form the 16-bit effective address.
Which operand values an encoding can hold is `Instr.wellFormed`. -/
inductive Instr where
  | bpl (off : Addr)
  | clc
  | bmi (off : Addr)
  | sec
  | bvc (off : Addr)
  | cli
  | bvs (off : Addr)
  | sei
  | styZp (ea : Addr)
  | staZp (ea : Addr)
  | stxZp (ea : Addr)
  | styAbs (ea : Addr)
  | staAbs (ea : Addr)
  | stxAbs (ea : Addr)
  | bcc (off : Addr)
  | ldyImm (v : Byte)
  | ldxImm (v : Byte)
  | ldyZp (ea : Addr)
  | ldaZp (ea : Addr)
  | ldxZp (ea : Addr)
  | ldaImm (v : Byte)
  | ldyAbs (ea : Addr)
  | ldaAbs (ea : Addr)
  | ldxAbs (ea : Addr)
  | bcs (off : Addr)
  | clv
  | bne (off : Addr)
  | cld
  | beq (off : Addr)
  | sed
deriving DecidableEq, Repr

end Sys2Proof
end

