-- ==== Sys2Proof/WellFormed.lean ====
section
/-! DEFINITION. Which operands an encoding can hold (30_encoding R91, R92). -/

namespace Sys2Proof

/-- The address lies in the zero page, 0x0000 to 0x00FF (20_memory R71 a; 41_addressing R151). -/
def inZeroPage (ea : Addr) : Bool := ea.toNat < 0x100

/-- The 16-bit offset is the sign extension of a byte: its signed value lies in [-128, 127] (43_branch R200). -/
def isOffset (off : Addr) : Bool := -128 ≤ off.toInt && off.toInt ≤ 127

/-- A zero-page form names an address of page 0 and a branch an offset in [-128, 127].
Immediate bytes, absolute addresses and the operandless forms have no check: every value is encodable. -/
def Instr.wellFormed : Instr → Bool
  | .bpl off | .bmi off | .bvc off | .bvs off | .bcc off | .bcs off | .bne off | .beq off => isOffset off
  | .ldaZp ea | .ldxZp ea | .ldyZp ea | .staZp ea | .stxZp ea | .styZp ea => inZeroPage ea
  | .clc | .sec | .cli | .sei | .clv | .cld | .sed => true
  | .ldaImm _ | .ldxImm _ | .ldyImm _ => true
  | .ldaAbs _ | .ldxAbs _ | .ldyAbs _ | .staAbs _ | .stxAbs _ | .styAbs _ => true

end Sys2Proof
end

