-- ==== Sys2Proof/Decode.lean ====
section
/-! DEFINITION. The decoder, total on any bytes and rejecting by name, the encoder, and the byte helpers both use
(30_encoding; 00_scope R15). -/

namespace Sys2Proof

/-! ## Byte helpers (00_scope R15) -/

/-- `zext_16(b)`: b with 8 zero bits above it. -/
def zext16 (b : Byte) : Addr := b.setWidth 16

/-- `sext_16(b)`: the 16-bit two's-complement sign extension of b. -/
def sext16 (b : Byte) : Addr := b.signExtend 16

/-- `hi:lo`, the 16-bit value `(hi << 8) | lo`. -/
def hiLo (hi lo : Byte) : Addr := hi ++ lo

/-- Bits 7 to 0 of a 16-bit value. -/
def loByte (a : Addr) : Byte := a.extractLsb' 0 8

/-- Bits 15 to 8 of a 16-bit value. -/
def hiByte (a : Addr) : Byte := a.extractLsb' 8 8

/-! ## The opcode table (30_encoding R91, R95) -/

/-- What an opcode byte says: the format, and the instruction it makes of the operand bytes of that format. -/
inductive Shape where
  /-- `imp`: no operand byte. -/
  | implied (i : Instr)
  /-- `imm`: one operand byte, used as is. -/
  | immediate (make : Byte → Instr)
  /-- `zp`: one operand byte, the low byte of an address in page 0. -/
  | zeroPage (make : Addr → Instr)
  /-- `abs`: two operand bytes, the address, low byte first. -/
  | absolute (make : Addr → Instr)
  /-- `rel`: one operand byte, a signed offset. -/
  | relative (make : Addr → Instr)

/-- The closed opcode table of R95: 30 whole-byte opcodes; every other byte is an unknown opcode (R99). -/
def shapeOf (op : Byte) : Option Shape :=
  match op.toNat with
  | 0x10 => some (.relative .bpl)
  | 0x18 => some (.implied .clc)
  | 0x30 => some (.relative .bmi)
  | 0x38 => some (.implied .sec)
  | 0x50 => some (.relative .bvc)
  | 0x58 => some (.implied .cli)
  | 0x70 => some (.relative .bvs)
  | 0x78 => some (.implied .sei)
  | 0x84 => some (.zeroPage .styZp)
  | 0x85 => some (.zeroPage .staZp)
  | 0x86 => some (.zeroPage .stxZp)
  | 0x8C => some (.absolute .styAbs)
  | 0x8D => some (.absolute .staAbs)
  | 0x8E => some (.absolute .stxAbs)
  | 0x90 => some (.relative .bcc)
  | 0xA0 => some (.immediate .ldyImm)
  | 0xA2 => some (.immediate .ldxImm)
  | 0xA4 => some (.zeroPage .ldyZp)
  | 0xA5 => some (.zeroPage .ldaZp)
  | 0xA6 => some (.zeroPage .ldxZp)
  | 0xA9 => some (.immediate .ldaImm)
  | 0xAC => some (.absolute .ldyAbs)
  | 0xAD => some (.absolute .ldaAbs)
  | 0xAE => some (.absolute .ldxAbs)
  | 0xB0 => some (.relative .bcs)
  | 0xB8 => some (.implied .clv)
  | 0xD0 => some (.relative .bne)
  | 0xD8 => some (.implied .cld)
  | 0xF0 => some (.relative .beq)
  | 0xF8 => some (.implied .sed)
  | _ => none

/-- How many operand bytes follow the opcode (R91, R93). -/
def Shape.operandBytes : Shape → Nat
  | .implied _ => 0
  | .immediate _ | .zeroPage _ | .relative _ => 1
  | .absolute _ => 2

/-! ## Decoding bytes -/

/-- Why a list of bytes decodes to no instruction. -/
inductive DecodeError where
  /-- There is no opcode byte. -/
  | noBytes
  /-- The opcode byte is not in the closed table (R99). -/
  | unknownOpcode (op : Byte)
  /-- The opcode is in the table, but fewer operand bytes follow it than its format takes. -/
  | missingOperand (op : Byte)
deriving DecidableEq, Repr

/-- What decoding answers: the instruction with the bytes left over, or the reason there is none. -/
inductive Decoded where
  | instr (i : Instr) (rest : List Byte)
  | refused (e : DecodeError)
deriving DecidableEq, Repr

/-- The operand bytes taken by a shape and assembled as R92 says. -/
def Shape.assemble : Shape → List Byte → Option (Instr × List Byte)
  | .implied i, rest => some (i, rest)
  | .immediate make, v :: rest => some (make v, rest)
  | .zeroPage make, z :: rest => some (make (zext16 z), rest)
  | .absolute make, lo :: hi :: rest => some (make (hiLo hi lo), rest)
  | .relative make, d :: rest => some (make (sext16 d), rest)
  | _, _ => none

/-- Decode the instruction at the head of a list of bytes. The opcode alone decides the format (R90, R100). -/
def decode : List Byte → Decoded
  | [] => .refused .noBytes
  | op :: rest =>
    match shapeOf op with
    | none => .refused (.unknownOpcode op)
    | some sh =>
      match sh.assemble rest with
      | none => .refused (.missingOperand op)
      | some (i, left) => .instr i left

/-! ## Encoding -/

/-- The bytes of an instruction, opcode first, from the tables of R91 and R95. -/
def encode : Instr → List Byte
  | .bpl off => [0x10, loByte off]
  | .clc => [0x18]
  | .bmi off => [0x30, loByte off]
  | .sec => [0x38]
  | .bvc off => [0x50, loByte off]
  | .cli => [0x58]
  | .bvs off => [0x70, loByte off]
  | .sei => [0x78]
  | .styZp ea => [0x84, loByte ea]
  | .staZp ea => [0x85, loByte ea]
  | .stxZp ea => [0x86, loByte ea]
  | .styAbs ea => [0x8C, loByte ea, hiByte ea]
  | .staAbs ea => [0x8D, loByte ea, hiByte ea]
  | .stxAbs ea => [0x8E, loByte ea, hiByte ea]
  | .bcc off => [0x90, loByte off]
  | .ldyImm v => [0xA0, v]
  | .ldxImm v => [0xA2, v]
  | .ldyZp ea => [0xA4, loByte ea]
  | .ldaZp ea => [0xA5, loByte ea]
  | .ldxZp ea => [0xA6, loByte ea]
  | .ldaImm v => [0xA9, v]
  | .ldyAbs ea => [0xAC, loByte ea, hiByte ea]
  | .ldaAbs ea => [0xAD, loByte ea, hiByte ea]
  | .ldxAbs ea => [0xAE, loByte ea, hiByte ea]
  | .bcs off => [0xB0, loByte off]
  | .clv => [0xB8]
  | .bne off => [0xD0, loByte off]
  | .cld => [0xD8]
  | .beq off => [0xF0, loByte off]
  | .sed => [0xF8]

/-- The length in bytes of each instruction (R91): 1 implied, 2 immediate, zero-page or relative, 3 absolute. -/
def Instr.size : Instr → Nat
  | .clc | .sec | .cli | .sei | .clv | .cld | .sed => 1
  | .bpl _ | .bmi _ | .bvc _ | .bvs _ | .bcc _ | .bcs _ | .bne _ | .beq _ => 2
  | .ldaImm _ | .ldxImm _ | .ldyImm _ => 2
  | .ldaZp _ | .ldxZp _ | .ldyZp _ | .staZp _ | .stxZp _ | .styZp _ => 2
  | .ldaAbs _ | .ldxAbs _ | .ldyAbs _ | .staAbs _ | .stxAbs _ | .styAbs _ => 3

/-! ## The opcode table's numbering of bits -/

/-- The three bytes (the longest instruction) of an instruction whose `nbits` bits are `w`, bit 0 the least
significant bit of the first byte; every bit above `nbits` is 0. -/
def tableBytes (nbits w : Nat) : List Byte :=
  let v := w % 2 ^ nbits
  [BitVec.ofNat 8 v, BitVec.ofNat 8 (v / 256), BitVec.ofNat 8 (v / 65536)]

/-- The instruction the decoder reads from the bytes of a table row. -/
def decodeTableWord (nbits w : Nat) : Option Instr :=
  match decode (tableBytes nbits w) with
  | .instr i _ => some i
  | .refused _ => none

end Sys2Proof
end

