-- ==== Sys2Proof/Machine/Flags.lean ====
section
/-! DEFINITION. The status register's flags: their places, reading and writing one, the N/Z generator and the status
string (10_state R36-R41; 42_load_store R170). -/

namespace Sys2Proof.Machine

/-- The eight flags of P, most significant first (10_state R36). -/
inductive Flag where
  | n
  | v
  | always
  | b
  | d
  | i
  | z
  | c
deriving DecidableEq, Repr

/-- The bit of P a flag is (R36). -/
def flagBit : Flag → Fin 8
  | .n => 7
  | .v => 6
  | .always => 5
  | .b => 4
  | .d => 3
  | .i => 2
  | .z => 1
  | .c => 0

/-- `getFlag(i)`: bit i of the status byte (R38). -/
def getBit (p : Byte) (i : Fin 8) : Bool := p.getLsbD i.val

/-- `setFlag(i, b)`: the status byte with bit i replaced by b, the other seven unchanged (R39). -/
def setBit (p : Byte) (i : Fin 8) (b : Bool) : Byte :=
  if b then p ||| (1#8 <<< i.val) else p &&& ~~~(1#8 <<< i.val)

/-- `clearFlag(i)` is `setFlag(i, false)` (R39). -/
def clearBit (p : Byte) (i : Fin 8) : Byte := setBit p i false

/-- `P.f`, the value of a flag. -/
def getFlag (p : Byte) (f : Flag) : Bool := getBit p (flagBit f)

/-- `P.f <- b`. -/
def setFlag (p : Byte) (f : Flag) (b : Bool) : Byte := setBit p (flagBit f) b

/-- The N/Z flag generator `nz(v)`: N is bit 7 of the value, Z whether it is 0, no other bit is touched
(42_load_store R170). -/
def nz (v : Byte) (p : Byte) : Byte := setFlag (setFlag p .n (v.getLsbD 7)) .z (v == 0)

/-- The letter of a flag in the status string (10_state R36). -/
def flagLabel : Flag → Char
  | .n => 'N'
  | .v => 'V'
  | .always => '1'
  | .b => 'B'
  | .d => 'D'
  | .i => 'I'
  | .z => 'Z'
  | .c => 'C'

/-- One character of the status string: the label when the bit is 1, a dash when it is 0 (R41). -/
def statusChar (p : Byte) (f : Flag) : Char := if getFlag p f then flagLabel f else '-'

/-- The 8 characters of the status string, bit 7 first (R41). -/
def statusString (p : Byte) : List Char :=
  [statusChar p .n, statusChar p .v, statusChar p .always, statusChar p .b,
   statusChar p .d, statusChar p .i, statusChar p .z, statusChar p .c]

end Sys2Proof.Machine
end

