-- ==== Sys2Proof/Config.lean ====
section
/-! DEFINITION. The parameters the source leaves open (00_scope R13): `MemoryBus` and `TraceFormat`, with the types
that pass the memory port, and the free values. No constant of this file has a body: nothing can be proved of its value.
(`HaltAddress` is an argument of Sys2Proof/Machine/Run.lean's classification of a run.) -/

namespace Sys2Proof

/-! ## The memory port (00_scope R11; 20_memory R61, R62) -/

/-- Whether a request reads or writes; a MemoryFault records it (60_exceptions R260). -/
inductive AccessKind where
  | read
  | write
deriving DecidableEq, Repr, Inhabited

/-- What the memory answers to `read8`. -/
inductive ReadAnswer where
  | value (b : Byte)
  | fault
  /-- The memory never answers (70_reset R313). -/
  | silent
deriving DecidableEq, Repr, Inhabited

/-- What the memory answers to `write8`. -/
inductive WriteAnswer where
  | completed
  | fault
  /-- The memory never answers (70_reset R313). -/
  | silent
deriving DecidableEq, Repr, Inhabited

/-- One request with its answer: "a model records every request, in order, with its address, kind and value" (20_memory R70). -/
inductive Transaction where
  | read (a : Addr) (answer : ReadAnswer)
  | write (a : Addr) (v : Byte) (answer : WriteAnswer)
deriving DecidableEq, Repr

/-- What stands behind a range of addresses (20_memory R61, R62, R70, R73). -/
inductive RegionKind where
  /-- A read returns the last value written, else the launch contents; nothing faults: the default FlatRAM (R73). -/
  | ram
  /-- As `ram` for reads; a write completes and changes nothing (R62). -/
  | readOnly
  /-- Every request is answered with a fault (R61). -/
  | unmapped
  /-- As `ram`, but the transport of any single request may fail (R61); which ones is a free value. -/
  | unreliable
  /-- The collaborator decides every answer (R61, R70, D3); each is a free value. -/
  | device
deriving DecidableEq, Repr

/-- One range of the address map: `size` bytes from `base` on, not wrapping. -/
structure Region where
  base : Addr
  size : Nat
  kind : RegionKind
deriving DecidableEq, Repr

/-- The address lies in the region. -/
def Region.contains (r : Region) (a : Addr) : Bool := r.base.toNat ≤ a.toNat && a.toNat < r.base.toNat + r.size

/-! ## The free values of MemoryBus -/

/-- What an address holds before anything has been written to it: "what each address holds before the first write is
the memory collaborator's" (70_reset R301, U8). FREE VALUE: log entry 3. -/
opaque Config.launchByte : Addr → Byte

/-- Whether the transport of the next request fails, in an `unreliable` region, given the requests before it.
FREE VALUE: log entry 6. -/
opaque Config.transportFails : List Transaction → Addr → Bool

/-- Whether the byte of a faulted write is stored all the same: "both the old and the new byte admitted" (U5).
FREE VALUE: log entry 7. -/
opaque Config.faultedWriteLands : List Transaction → Addr → Byte → Bool

/-- A device's answer to a read, given the requests before it (D3). FREE VALUE: log entry 5. -/
opaque Config.deviceRead : List Transaction → Addr → ReadAnswer

/-- A device's answer to a write, given the requests before it (D3). FREE VALUE: log entry 5. -/
opaque Config.deviceWrite : List Transaction → Addr → Byte → WriteAnswer

/-! ## The free value of the core -/

/-- PC after a MemoryFault past the opcode fetch, given the requests up to the faulting one: "a model gives it any
16-bit value" (40_step_cycle R132, D6, U6). FREE VALUE: log entry 8. -/
opaque Config.pcAfterFault : List Transaction → Addr

/-! ## The trace -/

/-- The six fields, as SNAPSHOT_LOAD and SNAPSHOT_READ carry them (60_exceptions R280, R281). -/
structure Snapshot where
  a : Byte
  x : Byte
  y : Byte
  sp : Byte
  p : Byte
  pc : Addr
deriving DecidableEq, Repr

/-- A trace record (40_step_cycle R122): PC, opcode, all six registers and the 8 characters of the status string,
all of them pre-execution values. -/
structure TraceRecord where
  pc : Addr
  opcode : Byte
  regs : Snapshot
  status : List Char
deriving DecidableEq, Repr

/-- `TraceFormat`, the spelling of a trace line (60_exceptions R285, D10). FREE VALUE: log entry 11. -/
opaque Config.traceFormat : TraceRecord → String

end Sys2Proof
end

