-- ==== Sys2Proof/Machine/State.lean ====
section
/-! DEFINITION. The machine's state as plain data, its stop reasons, and the state after POWER_ON (10_state; 70_reset R300). -/

namespace Sys2Proof.Machine

/-- A violation `validateState` can report (70_reset R307), `reg` naming one of A, X, Y, SP, P. -/
inductive Violation where
  | registerOutOfRange (reg : String)
  | alwaysFlagClear
  | pcOutOfRange
deriving DecidableEq, Repr

/-- The outcome of a STEP or a RESET (60_exceptions R260). -/
inductive StepOutcome where
  /-- "normal continuation" (RESET: Ok). -/
  | continues
  | unknownOpcode (op : Byte)
  | corruptedState (violations : List Violation)
  | memoryFault (a : Addr) (kind : AccessKind)
deriving DecidableEq, Repr

/-- What the command port answers (00_scope R10). POWER_ON and SNAPSHOT_LOAD answer nothing. -/
inductive Response where
  | step (o : StepOutcome)
  | reset (o : StepOutcome)
  | violations (l : List Violation)
  | snapshot (r : Snapshot)
deriving DecidableEq, Repr

/-- A command of the command port (00_scope R9). -/
inductive Command where
  | powerOn
  | reset
  | step
  | validate
  | snapshotLoad (r : Snapshot)
  | snapshotRead
deriving DecidableEq, Repr

/-- The bytes of memory that have been written or loaded, by address: addresses strictly rising. An address not listed
has no byte here and reads as its launch contents (`State.byteAt`; log entry 3). -/
abbrev Memory := List Host.Cell

/-- The canonical form: addresses strictly rising, each one of the 65536 (20_memory R60). An unlisted address holds no
byte of the list, so no entry can repeat what it reads as. -/
abbrev Memory.wf (m : Memory) : Prop := m.Pairwise (fun c d => c.1 < d.1) ∧ ∀ c ∈ m, c.1 < 65536

/-- The machine: the six fields of 10_state R30, the memory behind the memory port, and what stands at the two ports. -/
structure State where
  /-- Accumulator. -/
  a : Byte
  /-- IndexX. -/
  x : Byte
  /-- IndexY. -/
  y : Byte
  /-- StackPointer: no instruction reads or writes it (R32). -/
  sp : Byte
  /-- ProcessorStatus, bits 7..0: N V Always B D I Z C (R36). -/
  p : Byte
  /-- ProgramCounter. -/
  pc : Addr
  /-- The bytes written or loaded so far (20_memory R73). -/
  mem : Memory
  /-- The MemoryBus parameter: what stands where; the first region that contains an address decides, and an address in
  none is plain RAM. No instruction changes it. -/
  regions : List Region
  /-- Every request made on the memory port with its answer, oldest first (20_memory R70). -/
  log : List Transaction
  /-- The commands the host has still to issue, oldest first; when it is empty the host issues STEP. -/
  commands : List Command
  /-- The trace record the last STEP emitted (60_exceptions R285); none after any other command. -/
  trace : Option TraceRecord
  /-- The last command's response (00_scope R10). -/
  response : Option Response
deriving DecidableEq, Repr

/-- Why the machine stops. The core's own terminal outcomes are NOT here: they are responses after which the core would
step again (40_step_cycle R131; log entry 1). -/
inductive Fault where
  /-- Raised by a memory request a device never answers: the core waits for ever inside the command (70_reset R313,
  U11: stuck). Safe: nothing is claimed of what follows. -/
  | noAnswer (a : Addr) (kind : AccessKind)
deriving DecidableEq, Repr

/-- Why the model gives no next state. -/
inductive Refusal where
  /-- Raised by an arm of `exec` whose instruction has no meaning yet. No arm raises it now. Safe. -/
  | notModelled (mnemonic : String)
deriving DecidableEq, Repr

/-- The machine right after POWER_ON (70_reset R300, 10_state R45): "all registers zero, StackPointer = 255, only the
Always flag set"; no byte of memory listed (R301), FlatRAM, nothing requested yet, no command pending. -/
def State.reset : State :=
  { a := 0x00, x := 0x00, y := 0x00, sp := 0xFF, p := 0x20, pc := 0x0000,
    mem := [], regions := [], log := [], commands := [], trace := none, response := none }

end Sys2Proof.Machine
end

