-- ==== Sys2Proof/Machine/Ops.lean ====
section
/-! DEFINITION. The named operations over registers, memory and the two ports, and the one way a terminal outcome is
raised (00_scope R16-R18; 20_memory; 60_exceptions R260-R266). -/

namespace Sys2Proof.Machine

/-! ## Updates of the state -/

/-- The registers a load writes and a store reads (30_encoding R94). -/
inductive Reg where
  | a
  | x
  | y
deriving DecidableEq, Repr

/-- `x[r]`. -/
def State.reg (s : State) : Reg → Byte
  | .a => s.a
  | .x => s.x
  | .y => s.y

/-- `x[r] <- v`. -/
def State.setReg (s : State) (r : Reg) (v : Byte) : State :=
  match r with
  | .a => { s with a := v }
  | .x => { s with x := v }
  | .y => { s with y := v }

/-- `x[P] <- v`. No instruction does it directly: the flag writes and POWER_ON, SNAPSHOT_LOAD go through it. -/
def State.setP (s : State) (v : Byte) : State := { s with p := v }

/-- `pc <- target`. -/
def State.setPc (s : State) (target : Addr) : State := { s with pc := target }

/-- The contents of memory replaced. -/
def State.setMem (s : State) (m : Memory) : State := { s with mem := m }

/-- A request and its answer recorded (20_memory R70). -/
def State.record (s : State) (t : Transaction) : State := { s with log := s.log ++ [t] }

/-- The command's response put on the command port. -/
def State.respond (s : State) (r : Option Response) : State := { s with response := r }

/-- The STEP's trace record put out (40_step_cycle R122). -/
def State.emit (s : State) (t : Option TraceRecord) : State := { s with trace := t }

/-- The six fields overwritten, each verbatim (60_exceptions R280). -/
def State.load (s : State) (r : Snapshot) : State :=
  { s with a := r.a, x := r.x, y := r.y, sp := r.sp, p := r.p, pc := r.pc }

/-- The six fields (60_exceptions R281). -/
def State.snapshot (s : State) : Snapshot := { a := s.a, x := s.x, y := s.y, sp := s.sp, p := s.p, pc := s.pc }

/-! ## Memory contents -/

/-- The byte listed for an address, if there is one. -/
def Memory.lookup : Memory → Nat → Option Byte
  | [], _ => none
  | (k, b) :: m, a => if k = a then some b else Memory.lookup m a

/-- The contents with one byte replaced or added, in canonical form. -/
def Memory.write : Memory → Nat → Byte → Memory
  | [], a, v => [(a, v)]
  | (k, b) :: m, a, v =>
    if a < k then (a, v) :: (k, b) :: m
    else if a = k then (a, v) :: m
    else (k, b) :: Memory.write m a v

/-- THE ONE READ OF A BYTE of what memory holds: the byte listed, else the address's launch contents (20_memory R73,
70_reset R301). It makes no request. -/
def State.byteAt (s : State) (a : Addr) : Byte := (s.mem.lookup a.toNat).getD (Config.launchByte a)

/-- What stands at an address: the first region that contains it, else plain RAM (20_memory R73). -/
def kindIn : List Region → Addr → RegionKind
  | [], _ => .ram
  | r :: rs, a => if r.contains a then r.kind else kindIn rs a

/-- What stands at an address in this state. -/
def State.kindAt (s : State) (a : Addr) : RegionKind := kindIn s.regions a

/-! ## The memory port -/

/-- What the memory answers to `read8(a)` now (20_memory R61). -/
def State.readAnswer (s : State) (a : Addr) : ReadAnswer :=
  match s.kindAt a with
  | .ram | .readOnly => .value (s.byteAt a)
  | .unmapped => .fault
  | .unreliable => if Config.transportFails s.log a then .fault else .value (s.byteAt a)
  | .device => Config.deviceRead s.log a

/-- What the memory answers to `write8(a, v)` now (20_memory R62). -/
def State.writeAnswer (s : State) (a : Addr) (v : Byte) : WriteAnswer :=
  match s.kindAt a with
  | .ram | .readOnly => .completed
  | .unmapped => .fault
  | .unreliable => if Config.transportFails s.log a then .fault else .completed
  | .device => Config.deviceWrite s.log a v

/-- The contents after `write8(a, v)`: a completed write is stored in RAM and ignored by a read-only location (R62); a
device keeps its own contents; a faulted write may or may not have landed (U5). -/
def State.memAfterWrite (s : State) (a : Addr) (v : Byte) : Memory :=
  match s.writeAnswer a v with
  | .completed =>
    match s.kindAt a with
    | .ram | .unreliable => s.mem.write a.toNat v
    | .readOnly | .unmapped | .device => s.mem
  | .fault => if Config.faultedWriteLands s.log a v then s.mem.write a.toNat v else s.mem
  | .silent => s.mem

/-- What one or more requests came to: a value, a MemoryFault at a request, or a request never answered. -/
inductive Result (α : Type) where
  | ok (v : α) (s : State)
  | fault (a : Addr) (kind : AccessKind) (s : State)
  | stuck (f : Fault)

/-- The next request is made only after the one before has been answered with a value (00_scope R18). -/
def Result.andThen {α β : Type} (r : Result α) (f : α → State → Result β) : Result β :=
  match r with
  | .ok v s => f v s
  | .fault a k s => .fault a k s
  | .stuck e => .stuck e

/-- `MemRead(addr, 1)`: one `read8` request (00_scope R17). -/
def memRead (a : Addr) (s : State) : Result Byte :=
  match s.readAnswer a with
  | .value b => .ok b (s.record (.read a (.value b)))
  | .fault => .fault a .read (s.record (.read a .fault))
  | .silent => .stuck (.noAnswer a .read)

/-- `MemWrite(addr, 1, v)`: one `write8` request (00_scope R17). -/
def memWrite (a : Addr) (v : Byte) (s : State) : Result Unit :=
  match s.writeAnswer a v with
  | .completed => .ok () ((s.setMem (s.memAfterWrite a v)).record (.write a v .completed))
  | .fault => .fault a .write ((s.setMem (s.memAfterWrite a v)).record (.write a v .fault))
  | .silent => .stuck (.noAnswer a .write)

/-- `MemRead16(addr)`: low byte first, then the high byte at (addr + 1) mod 65536 (20_memory R64, R66). -/
def memRead16 (a : Addr) (s : State) : Result Addr :=
  (memRead a s).andThen fun lo s1 => (memRead (a + 1) s1).andThen fun hi s2 => .ok (hiLo hi lo) s2

/-! ## Validation (70_reset R306, R307) -/

/-- `validateState()`: the violations of the state, in the order R307 gives. It writes nothing and makes no request. -/
def validateState (s : State) : List Violation :=
  let range (name : String) (r : Byte) : List Violation := if 255 < r.toNat then [.registerOutOfRange name] else []
  range "A" s.a ++ range "X" s.x ++ range "Y" s.y ++ range "SP" s.sp ++ range "P" s.p
    ++ (if getFlag s.p .always then [] else [.alwaysFlagClear])
    ++ (if 65535 < s.pc.toNat then [.pcOutOfRange] else [])

/-! ## Outcomes (60_exceptions R260-R267) -/

/-- The numeric code of an outcome (R260). -/
def outcomeCode : StepOutcome → Nat
  | .continues => 0
  | .unknownOpcode _ => 1
  | .corruptedState _ => 2
  | .memoryFault _ _ => 3

/-- THE ONE WAY A STEP ENDS, normally or in a terminal outcome: the outcome goes to the host on the command port.
"The core saves no state anywhere, pushes nothing, changes no mode, mask or flag, and transfers control nowhere" (R266).
There is no return from it: a later command finds the state as it is (R267, 40_step_cycle R131). -/
def raise (o : StepOutcome) (s : State) : State := s.respond (some (.step o))

/-- UnknownOpcode: PC is left just past the opcode (40_step_cycle R125, R127). `s.pc` is the opcode's address. -/
def raiseUnknownOpcode (op : Byte) (s : State) : State := raise (.unknownOpcode op) (s.setPc (s.pc + 1))

/-- CorruptedState: PC is not advanced (40_step_cycle R124). -/
def raiseCorruptedState (vs : List Violation) (s : State) : State := raise (.corruptedState vs) s

/-- MemoryFault on the opcode fetch: nothing changes and no trace record is emitted (40_step_cycle R121). -/
def raiseFetchFault (a : Addr) (k : AccessKind) (s : State) : State := raise (.memoryFault a k) (s.emit none)

/-- MemoryFault on a later request: A, X, Y, SP and P are as they were and PC is any value (40_step_cycle R132). -/
def raiseMemoryFault (a : Addr) (k : AccessKind) (s : State) : State :=
  raise (.memoryFault a k) (s.setPc (Config.pcAfterFault s.log))

/-- The instruction completed: the outcome is Continue (40_step_cycle R128). -/
def complete (s : State) : Host.Outcome State Fault Refusal := .next (raise .continues s)

/-- An instruction whose last request is still to be judged: with a value it goes on, with a MemoryFault the step ends
there, and a request never answered leaves the machine stuck. -/
def Result.finish {α : Type} (r : Result α) (f : α → State → Host.Outcome State Fault Refusal) :
    Host.Outcome State Fault Refusal :=
  match r with
  | .ok v s => f v s
  | .fault a k s => .next (raiseMemoryFault a k s)
  | .stuck e => .fault e

/-- The trace record of a STEP: the values before the instruction is executed (40_step_cycle R122). -/
def traceRecord (s : State) (op : Byte) : TraceRecord :=
  { pc := s.pc, opcode := op, regs := s.snapshot, status := statusString s.p }

/-- The line a trace record is written as: `TraceFormat` decides its spelling (60_exceptions R285, D10). -/
def traceLine (t : TraceRecord) : String := Config.traceFormat t

/-! ## Placing bytes from outside -/

/-- A byte placed in memory from outside the core: no request is made. -/
def State.poke (s : State) (a : Addr) (v : Byte) : State := s.setMem (s.mem.write a.toNat v)

/-- The address made one whose reads answer with what memory holds, if it is not one already. -/
def State.mapPlain (s : State) (a : Addr) : State :=
  match s.kindAt a with
  | .ram | .readOnly => s
  | .unmapped | .unreliable | .device => { s with regions := ⟨a, 1, .ram⟩ :: s.regions }

/-- Bytes placed at consecutive addresses (mod 65536), each made readable. -/
def State.place : State → Addr → List Byte → State
  | s, _, [] => s
  | s, a, b :: bs => State.place ((s.poke a b).mapPlain a) (a + 1) bs

end Sys2Proof.Machine
end

