-- ==== Sys2Proof/Machine/Operands.lean ====
section
/-! DEFINITION. The addressing modes (41_addressing R150-R155) and the operand fetch of each format. -/

namespace Sys2Proof.Machine

/-- Where a load's value comes from, its operand assembled (41_addressing R154: the closed set for loads). -/
inductive Source where
  | immediate (v : Byte)
  | zeroPage (ea : Addr)
  | absolute (ea : Addr)
deriving DecidableEq, Repr

/-- Where a store's value goes (R153, R154: the closed set for stores; there is no immediate store). -/
inductive Dest where
  | zeroPage (ea : Addr)
  | absolute (ea : Addr)
deriving DecidableEq, Repr

/-- How far PC moves from the opcode's address: the opcode byte and the bytes the mode consumes (R155). -/
def Source.length : Source → Addr
  | .immediate _ | .zeroPage _ => 2
  | .absolute _ => 3

/-- How far PC moves from the opcode's address (R155). -/
def Dest.length : Dest → Addr
  | .zeroPage _ => 2
  | .absolute _ => 3

/-- `resolveAddress` (R151, R152, R153): the effective address. -/
def Dest.address : Dest → Addr
  | .zeroPage ea => ea
  | .absolute ea => ea

/-- `resolveValue` past the operand bytes: the immediate byte itself (R150), or one data read (R151, R152). -/
def resolveValue : Source → State → Result Byte
  | .immediate v, s => .ok v s
  | .zeroPage ea, s => memRead ea s
  | .absolute ea, s => memRead ea s

/-- The operand bytes of a format read from just past the opcode at `s.pc`, and assembled (30_encoding R92;
41_addressing R150-R152; 43_branch R200). -/
def fetchOperand (sh : Shape) (s : State) : Result Instr :=
  match sh with
  | .implied i => .ok i s
  | .immediate make => (memRead (s.pc + 1) s).andThen fun v s' => .ok (make v) s'
  | .zeroPage make => (memRead (s.pc + 1) s).andThen fun z s' => .ok (make (zext16 z)) s'
  | .absolute make => (memRead16 (s.pc + 1) s).andThen fun ea s' => .ok (make ea) s'
  | .relative make => (memRead (s.pc + 1) s).andThen fun d s' => .ok (make (sext16 d)) s'

end Sys2Proof.Machine
end

