-- ==== Sys2Proof/Machine/Branches.lean ====
section
/-! DEFINITION. The eight conditional branches (43_branch R200-R213). In every meaning `s.pc` is the opcode's address. -/

namespace Sys2Proof.Machine

/-- The taken target: the offset is added to the address of the offset byte, op + 1 (R201; 90_conflicts C5). -/
def takenTarget (op off : Addr) : Addr := op + 1 + off

/-- `branch(f, e)` (R202): taken when the flag has the expected value, else PC moves past the offset byte. -/
def branch (f : Flag) (expected : Bool) (off : Addr) (s : State) : Host.Outcome State Fault Refusal :=
  complete (s.setPc (if getFlag s.p f = expected then takenTarget s.pc off else s.pc + 2))

/-- BPL: branch if Negative is 0 (R203). -/
def execBpl (off : Addr) (s : State) : Host.Outcome State Fault Refusal := branch .n false off s

/-- BMI: branch if Negative is 1 (R204). -/
def execBmi (off : Addr) (s : State) : Host.Outcome State Fault Refusal := branch .n true off s

/-- BVC: branch if Overflow is 0 (R205). -/
def execBvc (off : Addr) (s : State) : Host.Outcome State Fault Refusal := branch .v false off s

/-- BVS: branch if Overflow is 1 (R206). -/
def execBvs (off : Addr) (s : State) : Host.Outcome State Fault Refusal := branch .v true off s

/-- BCC: branch if Carry is 0 (R207). -/
def execBcc (off : Addr) (s : State) : Host.Outcome State Fault Refusal := branch .c false off s

/-- BCS: branch if Carry is 1 (R208). -/
def execBcs (off : Addr) (s : State) : Host.Outcome State Fault Refusal := branch .c true off s

/-- BNE: branch if Zero is 0 (R209). -/
def execBne (off : Addr) (s : State) : Host.Outcome State Fault Refusal := branch .z false off s

/-- BEQ: branch if Zero is 1 (R210). -/
def execBeq (off : Addr) (s : State) : Host.Outcome State Fault Refusal := branch .z true off s

end Sys2Proof.Machine
end

