-- ==== Sys2Proof/Machine/FlagOps.lean ====
section
/-! DEFINITION. The seven flag-set and flag-clear instructions (44_flag_ops R230-R238). -/

namespace Sys2Proof.Machine

/-- A flag op: one flag written, PC just past the opcode, no request (R230). -/
def flagOp (f : Flag) (b : Bool) (s : State) : Host.Outcome State Fault Refusal :=
  complete ((s.setP (setFlag s.p f b)).setPc (s.pc + 1))

/-- CLC: clear Carry (R231). -/
def execClc (s : State) : Host.Outcome State Fault Refusal := flagOp .c false s

/-- SEC: set Carry (R232). -/
def execSec (s : State) : Host.Outcome State Fault Refusal := flagOp .c true s

/-- CLI: clear InterruptDisable (R233). -/
def execCli (s : State) : Host.Outcome State Fault Refusal := flagOp .i false s

/-- SEI: set InterruptDisable (R234). -/
def execSei (s : State) : Host.Outcome State Fault Refusal := flagOp .i true s

/-- CLV: SET Overflow; its name says clear, "reproduce as observed" (R235; 90_conflicts C4). -/
def execClv (s : State) : Host.Outcome State Fault Refusal := flagOp .v true s

/-- CLD: clear Decimal (R236). -/
def execCld (s : State) : Host.Outcome State Fault Refusal := flagOp .d false s

/-- SED: set Decimal (R237). -/
def execSed (s : State) : Host.Outcome State Fault Refusal := flagOp .d true s

end Sys2Proof.Machine
end

