-- ==== Sys2Proof/Machine/Loads.lean ====
section
/-! DEFINITION. The loads LDA, LDX, LDY (42_load_store R170, R171, R173-R181). In every meaning `s.pc` is the opcode's
address and the operand is already assembled. -/

namespace Sys2Proof.Machine

/-- The value written into the register, N and Z recomputed from it, PC at the next opcode (R171, 41_addressing R155). -/
def loadValue (r : Reg) (len : Addr) (v : Byte) (s : State) : State :=
  ((s.setReg r v).setP (nz v s.p)).setPc (s.pc + len)

/-- `loadRegister(r, m)` (R171): if the read faults, neither the register nor the flags are written. -/
def loadRegister (r : Reg) (m : Source) (s : State) : Host.Outcome State Fault Refusal :=
  (resolveValue m s).finish fun v s' => complete (loadValue r m.length v s')

/-- LDA immediate (R173). -/
def execLdaImm (v : Byte) (s : State) : Host.Outcome State Fault Refusal := loadRegister .a (.immediate v) s

/-- LDA zero-page (R174). -/
def execLdaZp (ea : Addr) (s : State) : Host.Outcome State Fault Refusal := loadRegister .a (.zeroPage ea) s

/-- LDA absolute (R175). -/
def execLdaAbs (ea : Addr) (s : State) : Host.Outcome State Fault Refusal := loadRegister .a (.absolute ea) s

/-- LDX immediate (R176). -/
def execLdxImm (v : Byte) (s : State) : Host.Outcome State Fault Refusal := loadRegister .x (.immediate v) s

/-- LDX zero-page (R177). -/
def execLdxZp (ea : Addr) (s : State) : Host.Outcome State Fault Refusal := loadRegister .x (.zeroPage ea) s

/-- LDX absolute (R178). -/
def execLdxAbs (ea : Addr) (s : State) : Host.Outcome State Fault Refusal := loadRegister .x (.absolute ea) s

/-- LDY immediate (R179). -/
def execLdyImm (v : Byte) (s : State) : Host.Outcome State Fault Refusal := loadRegister .y (.immediate v) s

/-- LDY zero-page (R180). -/
def execLdyZp (ea : Addr) (s : State) : Host.Outcome State Fault Refusal := loadRegister .y (.zeroPage ea) s

/-- LDY absolute (R181). -/
def execLdyAbs (ea : Addr) (s : State) : Host.Outcome State Fault Refusal := loadRegister .y (.absolute ea) s

end Sys2Proof.Machine
end

