-- ==== Sys2Proof/Machine/Stores.lean ====
section
/-! DEFINITION. The stores STA, STX, STY (42_load_store R172, R182-R187). In every meaning `s.pc` is the opcode's
address and the effective address is already assembled. -/

namespace Sys2Proof.Machine

/-- `storeRegister(r, m)` (R172): one write of the register's value; no register or flag is written. -/
def storeRegister (r : Reg) (m : Dest) (s : State) : Host.Outcome State Fault Refusal :=
  (memWrite m.address (s.reg r) s).finish fun _ s' => complete (s'.setPc (s'.pc + m.length))

/-- STA zero-page (R182). -/
def execStaZp (ea : Addr) (s : State) : Host.Outcome State Fault Refusal := storeRegister .a (.zeroPage ea) s

/-- STA absolute (R183). -/
def execStaAbs (ea : Addr) (s : State) : Host.Outcome State Fault Refusal := storeRegister .a (.absolute ea) s

/-- STX zero-page (R184). -/
def execStxZp (ea : Addr) (s : State) : Host.Outcome State Fault Refusal := storeRegister .x (.zeroPage ea) s

/-- STX absolute (R185). -/
def execStxAbs (ea : Addr) (s : State) : Host.Outcome State Fault Refusal := storeRegister .x (.absolute ea) s

/-- STY zero-page (R186). -/
def execStyZp (ea : Addr) (s : State) : Host.Outcome State Fault Refusal := storeRegister .y (.zeroPage ea) s

/-- STY absolute (R187). -/
def execStyAbs (ea : Addr) (s : State) : Host.Outcome State Fault Refusal := storeRegister .y (.absolute ea) s

end Sys2Proof.Machine
end

