-- ==== Sys2Proof/Machine/Dispatch.lean ====
section
/-! DEFINITION. What each instruction does: one arm per constructor, each one call of its meaning (40_step_cycle R126). -/

namespace Sys2Proof.Machine

def exec (i : Instr) (s : State) : Host.Outcome State Fault Refusal :=
  match i with
  | .bpl off => Sys2Proof.Machine.execBpl off s
  | .clc => Sys2Proof.Machine.execClc s
  | .bmi off => Sys2Proof.Machine.execBmi off s
  | .sec => Sys2Proof.Machine.execSec s
  | .bvc off => Sys2Proof.Machine.execBvc off s
  | .cli => Sys2Proof.Machine.execCli s
  | .bvs off => Sys2Proof.Machine.execBvs off s
  | .sei => Sys2Proof.Machine.execSei s
  | .styZp ea => Sys2Proof.Machine.execStyZp ea s
  | .staZp ea => Sys2Proof.Machine.execStaZp ea s
  | .stxZp ea => Sys2Proof.Machine.execStxZp ea s
  | .styAbs ea => Sys2Proof.Machine.execStyAbs ea s
  | .staAbs ea => Sys2Proof.Machine.execStaAbs ea s
  | .stxAbs ea => Sys2Proof.Machine.execStxAbs ea s
  | .bcc off => Sys2Proof.Machine.execBcc off s
  | .ldyImm v => Sys2Proof.Machine.execLdyImm v s
  | .ldxImm v => Sys2Proof.Machine.execLdxImm v s
  | .ldyZp ea => Sys2Proof.Machine.execLdyZp ea s
  | .ldaZp ea => Sys2Proof.Machine.execLdaZp ea s
  | .ldxZp ea => Sys2Proof.Machine.execLdxZp ea s
  | .ldaImm v => Sys2Proof.Machine.execLdaImm v s
  | .ldyAbs ea => Sys2Proof.Machine.execLdyAbs ea s
  | .ldaAbs ea => Sys2Proof.Machine.execLdaAbs ea s
  | .ldxAbs ea => Sys2Proof.Machine.execLdxAbs ea s
  | .bcs off => Sys2Proof.Machine.execBcs off s
  | .clv => Sys2Proof.Machine.execClv s
  | .bne off => Sys2Proof.Machine.execBne off s
  | .cld => Sys2Proof.Machine.execCld s
  | .beq off => Sys2Proof.Machine.execBeq off s
  | .sed => Sys2Proof.Machine.execSed s

end Sys2Proof.Machine
end

