-- ==== Sys2Proof/Machine/Cycle.lean ====
section
/-! DEFINITION. The STEP command: fetch, trace, validate, decode, execute (40_step_cycle R120-R133). -/

namespace Sys2Proof.Machine

/-- What the part of a STEP before execution comes to: an instruction to run, a step that has already ended in a terminal
outcome, or a request never answered. -/
inductive Fetched where
  | run (i : Instr) (s : State)
  | ended (s : State)
  | stuck (f : Fault)

/-- Decode and operand fetch, once the state has passed validation (R126, R127, R132). `s.pc` is still the opcode's
address: the host sees PC only between commands (R133; log entry 12). -/
def decodeAndFetch (op : Byte) (s : State) : Fetched :=
  match shapeOf op with
  | none => .ended (raiseUnknownOpcode op s)
  | some sh =>
    match fetchOperand sh s with
    | .ok i s' => .run i s'
    | .fault a k s' => .ended (raiseMemoryFault a k s')
    | .stuck f => .stuck f

/-- The opcode fetched (R121), the trace record emitted (R122), the state validated (R123, R124), the instruction
decoded and its operand bytes read. -/
def fetchInstr (s : State) : Fetched :=
  match memRead s.pc s with
  | .fault a k s' => .ended (raiseFetchFault a k s')
  | .stuck f => .stuck f
  | .ok op s' =>
    let traced := s'.emit (some (traceRecord s' op))
    match validateState traced with
    | [] => decodeAndFetch op traced
    | vs => .ended (raiseCorruptedState vs traced)

/-- STEP (R120): exactly one fetch-decode-execute cycle. -/
def stepCommand (s : State) : Host.Outcome State Fault Refusal :=
  match fetchInstr s with
  | .run i s' => exec i s'
  | .ended s' => .next s'
  | .stuck f => .fault f

end Sys2Proof.Machine
end

