-- ==== Sys2Proof/Machine/Commands.lean ====
section
/-! DEFINITION. The other commands of the command port, and the port itself (00_scope R9, R10; 60_exceptions R280, R281;
70_reset R300, R303, R308). -/

namespace Sys2Proof.Machine

/-- The six fields "created fresh" (R300). -/
def freshFields : Snapshot := { a := 0x00, x := 0x00, y := 0x00, sp := 0xFF, p := 0x20, pc := 0x0000 }

/-- A command other than STEP has its response and no trace record. -/
def respondOnly (r : Option Response) (s : State) : State := (s.emit none).respond r

/-- POWER_ON (R300, R301): the six fields fresh, no request, no response, memory as it is. -/
def powerOnCommand (s : State) : Host.Outcome State Fault Refusal := .next (respondOnly none (s.load freshFields))

/-- RESET (R303, R304): PC from the two bytes at 0xFFFC (low) and 0xFFFD; nothing else is touched, the state is not
validated, and a fault leaves PC as it was. -/
def resetCommand (s : State) : Host.Outcome State Fault Refusal :=
  match memRead16 0xFFFC s with
  | .ok target s' => .next (respondOnly (some (.reset .continues)) (s'.setPc target))
  | .fault a k s' => .next (respondOnly (some (.reset (.memoryFault a k))) s')
  | .stuck f => .fault f

/-- VALIDATE (R308): the violation list; no state changes. -/
def validateCommand (s : State) : Host.Outcome State Fault Refusal :=
  .next (respondOnly (some (.violations (validateState s))) s)

/-- SNAPSHOT_LOAD (R280): six fields, each verbatim, with no validation and no request; no response. -/
def snapshotLoadCommand (r : Snapshot) (s : State) : Host.Outcome State Fault Refusal :=
  .next (respondOnly none (s.load r))

/-- SNAPSHOT_READ (R281): the six fields; nothing changes and no request is made. -/
def snapshotReadCommand (s : State) : Host.Outcome State Fault Refusal :=
  .next (respondOnly (some (.snapshot s.snapshot)) s)

/-- One command of the command port, carried out whole before the next is taken (R9; 40_step_cycle R129). -/
def runCommand (c : Command) (s : State) : Host.Outcome State Fault Refusal :=
  match c with
  | .powerOn => powerOnCommand s
  | .reset => resetCommand s
  | .step => stepCommand s
  | .validate => validateCommand s
  | .snapshotLoad r => snapshotLoadCommand r s
  | .snapshotRead => snapshotReadCommand s

/-- The host's next command taken off the list of those it has still to issue; when none is left it issues STEP. -/
def nextCommand (s : State) : Command × State :=
  match s.commands with
  | [] => (.step, s)
  | c :: rest => (c, { s with commands := rest })

end Sys2Proof.Machine
end

