-- ==== Sys2Proof/Machine/Step.lean ====
section
/-! DEFINITION. One step of the machine: the host's next command carried out. -/

namespace Sys2Proof.Machine

/-- One command of the command port; a STEP when the host has no other to issue. -/
def step (s : State) : Host.Outcome State Fault Refusal := runCommand (nextCommand s).1 (nextCommand s).2

/-- The state with an instruction of the opcode table stored where a STEP fetches next, that STEP being the host's next
command, and the bytes answered by plain memory (they are already, unless a region says otherwise). PC, the registers
and every other field stay; in a state whose Always flag is clear the STEP still ends with CorruptedState, as the spec says. -/
def State.withFetchWord (s : State) (nbits w : Nat) : State :=
  { s.place s.pc (tableBytes nbits w) with commands := [] }

end Sys2Proof.Machine
end

