-- ==== Sys2Proof/Machine/Assembler.lean ====
section
/-! DEFINITION. The assembler syntax (30_encoding R101-R103): a line of characters is split into a mnemonic and an
operand form, and these give an instruction. -/

namespace Sys2Proof.Machine

/-- The operand of an assembler line (R101, R102). -/
inductive AsmOperand where
  /-- No operand. -/
  | none
  /-- `#$hh`. -/
  | immediate (v : Byte)
  /-- `$hh`, two hex digits. -/
  | twoDigits (z : Byte)
  /-- `$hhhh`, four hex digits: an absolute address, or a branch's target. -/
  | fourDigits (a : Addr)
  /-- `*d`, a raw signed decimal branch offset. -/
  | rawOffset (d : Int)
deriving DecidableEq, Repr

/-- The offset that takes a branch at `op` to `target`: `target - (op + 1)` as a signed number, if it lies in
[-128, 127]; else the line is rejected (R102). -/
def offsetTo (op target : Addr) : Option Addr :=
  let off := target - (op + 1)
  if isOffset off then some off else none

/-- A raw offset d, if it lies in [-128, 127] (R102). -/
def rawOffset (d : Int) : Option Addr :=
  if -128 ≤ d ∧ d ≤ 127 then some (BitVec.ofInt 16 d) else none

/-- A branch's operand: a target address or a raw offset (R102). -/
def branchOperand (op : Addr) (make : Addr → Instr) : AsmOperand → Option Instr
  | .fourDigits target => (offsetTo op target).map make
  | .rawOffset d => (rawOffset d).map make
  | .none | .immediate _ | .twoDigits _ => Option.none

/-- A load's operand: two digits select zero-page and four absolute, even for an address below 0x0100 (R101). -/
def loadOperand (imm : Byte → Instr) (zp abs : Addr → Instr) : AsmOperand → Option Instr
  | .immediate v => some (imm v)
  | .twoDigits z => some (zp (zext16 z))
  | .fourDigits a => some (abs a)
  | .none | .rawOffset _ => Option.none

/-- A store's operand: as a load's, without an immediate form (R98, R101). -/
def storeOperand (zp abs : Addr → Instr) : AsmOperand → Option Instr
  | .twoDigits z => some (zp (zext16 z))
  | .fourDigits a => some (abs a)
  | .none | .immediate _ | .rawOffset _ => Option.none

/-- An operandless line. -/
def noOperand (i : Instr) : AsmOperand → Option Instr
  | .none => some i
  | .immediate _ | .twoDigits _ | .fourDigits _ | .rawOffset _ => Option.none

/-- The instruction of an assembler line whose first byte will stand at `op`, or none where the line is rejected. There
is no pseudo-instruction (R103). -/
def assemble (op : Addr) (mnemonic : List Char) (operand : AsmOperand) : Option Instr :=
  match mnemonic with
  | ['L', 'D', 'A'] => loadOperand .ldaImm .ldaZp .ldaAbs operand
  | ['L', 'D', 'X'] => loadOperand .ldxImm .ldxZp .ldxAbs operand
  | ['L', 'D', 'Y'] => loadOperand .ldyImm .ldyZp .ldyAbs operand
  | ['S', 'T', 'A'] => storeOperand .staZp .staAbs operand
  | ['S', 'T', 'X'] => storeOperand .stxZp .stxAbs operand
  | ['S', 'T', 'Y'] => storeOperand .styZp .styAbs operand
  | ['B', 'P', 'L'] => branchOperand op .bpl operand
  | ['B', 'M', 'I'] => branchOperand op .bmi operand
  | ['B', 'V', 'C'] => branchOperand op .bvc operand
  | ['B', 'V', 'S'] => branchOperand op .bvs operand
  | ['B', 'C', 'C'] => branchOperand op .bcc operand
  | ['B', 'C', 'S'] => branchOperand op .bcs operand
  | ['B', 'N', 'E'] => branchOperand op .bne operand
  | ['B', 'E', 'Q'] => branchOperand op .beq operand
  | ['C', 'L', 'C'] => noOperand .clc operand
  | ['S', 'E', 'C'] => noOperand .sec operand
  | ['C', 'L', 'I'] => noOperand .cli operand
  | ['S', 'E', 'I'] => noOperand .sei operand
  | ['C', 'L', 'V'] => noOperand .clv operand
  | ['C', 'L', 'D'] => noOperand .cld operand
  | ['S', 'E', 'D'] => noOperand .sed operand
  | _ => Option.none

/-- The characters that are digits, as runs of consecutive code points: the first character of a run, how many it has,
and the value of its first. The letters of base 16 are capital or small (log entry 13). -/
def digitRuns : List (Char × Nat × Nat) := [('0', 10, 0), ('A', 6, 10), ('a', 6, 10)]

/-- The value of a character as a digit of a base, if it is one. -/
def digitValue (base : Nat) (c : Char) : Option Nat :=
  (digitRuns.findSome? fun (first, count, value) =>
    let place := c.toNat - first.toNat
    if first.toNat ≤ c.toNat ∧ place < count then some (value + place) else none).filter (· < base)

/-- The number a list of digits writes in a base, most significant first, `acc` standing before them. -/
def digits (base : Nat) (acc : Nat) : List Char → Option Nat
  | [] => some acc
  | c :: cs => (digitValue base c).bind fun d => digits base (base * acc + d) cs

/-- The operand a list of characters writes (R101, R102). -/
def parseOperand : List Char → Option AsmOperand
  | ['#', '$', h, l] => (digits 16 0 [h, l]).map fun n => .immediate (BitVec.ofNat 8 n)
  | ['$', h, l] => (digits 16 0 [h, l]).map fun n => .twoDigits (BitVec.ofNat 8 n)
  | ['$', a, b, c, d] => (digits 16 0 [a, b, c, d]).map fun n => .fourDigits (BitVec.ofNat 16 n)
  | '*' :: '-' :: d :: ds => (digits 10 0 (d :: ds)).map fun n : Nat => .rawOffset (-(n : Int))
  | '*' :: d :: ds => (digits 10 0 (d :: ds)).map fun n : Nat => .rawOffset n
  | _ => Option.none

/-- The instruction a line writes, or none where the line is rejected: a three-letter mnemonic, and after one space its
operand if it has one (R101). -/
def assembleLine (op : Addr) : List Char → Option Instr
  | [a, b, c] => assemble op [a, b, c] .none
  | a :: b :: c :: ' ' :: operand => (parseOperand operand).bind fun o => assemble op [a, b, c] o
  | _ => Option.none

end Sys2Proof.Machine
end

