-- ==== Sys2Proof/Machine/Run.lean ====
section
/-! DEFINITION. A run of a program as the model observes it: the host's commands carried out one after another, and the
record of every terminal outcome, which the model keeps and the core does not (70_reset R309, R315; 92_eei D7, D8; log
entry 19). -/

namespace Sys2Proof.Machine

/-- A terminal outcome, with PC as its command left it. -/
structure Terminal where
  outcome : StepOutcome
  pc : Addr
deriving DecidableEq, Repr

/-- A run so far. -/
structure Run where
  /-- The machine after the last command answered. -/
  state : State
  /-- Every terminal outcome of the run, oldest first: "sticky in the model, not in the core" (D7). -/
  terminals : List Terminal
  /-- A command was never answered: the core waits in it for ever (R313). -/
  stuck : Bool
deriving DecidableEq, Repr

/-- A run that begins in a state, with the commands the state holds and STEPs after them. -/
def Run.start (s : State) : Run := { state := s, terminals := [], stuck := false }

/-- The state a launch begins in (R309): just after POWER_ON, memory loaded, the map given, RESET the next command. -/
def launch (mem : Memory) (regions : List Region) : State :=
  { State.reset with mem := mem, regions := regions, commands := [.reset] }

/-- The terminal outcome an answer of the command port reports (60_exceptions R260). The non-empty list of VALIDATE is
a CorruptedState result (R308). -/
def terminalIn : Response → Option StepOutcome
  | .step .continues | .reset .continues => none
  | .step o | .reset o => some o
  | .violations [] => none
  | .violations vs => some (.corruptedState vs)
  | .snapshot _ => none

/-- What the command that ended in this state adds to the record. -/
def State.newTerminals (t : State) : List Terminal :=
  ((t.response.bind terminalIn).map fun o => { outcome := o, pc := t.pc }).toList

/-- One more command of the run. -/
def Run.next (r : Run) : Run :=
  if r.stuck then r
  else
    match step r.state with
    | .next t => { r with state := t, terminals := r.terminals ++ t.newTerminals }
    | .fault _ | .refused _ => { r with stuck := true }

/-- So many more commands of the run. -/
def Run.after (r : Run) : Nat → Run
  | 0 => r
  | n + 1 => (r.after n).next

/-- What a run has come to. -/
inductive RunStatus where
  | running
  | normalEnd
  | faulted
deriving DecidableEq, Repr

/-- UnknownOpcode at the launch parameter `HaltAddress` is the normal end, every other terminal outcome a fault (R315);
the faulting address is PC - 1. -/
def Terminal.status (halt : Addr) (e : Terminal) : RunStatus :=
  match e.outcome with
  | .unknownOpcode _ => if e.pc - 1 = halt then .normalEnd else .faulted
  | .corruptedState _ | .memoryFault _ _ => .faulted
  | .continues => .running

/-- A run ends with its first terminal outcome; what the host does after it changes nothing of how it ended. -/
def Run.status (halt : Addr) (r : Run) : RunStatus :=
  match r.terminals with
  | [] => .running
  | e :: _ => e.status halt

/-- The run from a state never ends: a hang (R315). A run stuck in a command that is never answered does not end either. -/
def State.hangs (s : State) : Prop := ∀ n, ((Run.start s).after n).terminals = []

end Sys2Proof.Machine
end

