-- ==== Sys2Proof/Safety.lean ====
section
/-! DEFINITION. The terms statements about runs are made in: the machine's invariant, what plain memory holds, what leaving
something unchanged means, and how an assembler line is written. -/

namespace Sys2Proof.Machine

/-! ## The invariant -/

/-- The command cannot put a 0 into the Always flag: only SNAPSHOT_LOAD can (10_state R37). -/
def Command.keepsAlways : Command → Bool
  | .snapshotLoad r => getFlag r.p .always
  | .powerOn | .reset | .step | .validate | .snapshotRead => true

/-- Memory is in canonical form, the Always flag is 1 (10_state R37), and no command still to come clears it. -/
def State.Inv (s : State) : Prop :=
  s.mem.wf ∧ getFlag s.p .always = true ∧ ∀ c ∈ s.commands, c.keepsAlways = true

/-! ## Plain memory and the code in it -/

/-- A read of the address is answered with what memory holds. -/
def State.readable (s : State) (a : Addr) : Bool := s.kindAt a = .ram || s.kindAt a = .readOnly

/-- The bytes stand at consecutive addresses (mod 65536) from `a` on, each in plain memory. -/
def State.holds (s : State) : Addr → List Byte → Prop
  | _, [] => True
  | a, b :: bs => s.readable a = true ∧ s.byteAt a = b ∧ s.holds (a + 1) bs

/-- The reads that fetch those bytes, with their answers. -/
def readsOf : Addr → List Byte → List Transaction
  | _, [] => []
  | a, b :: bs => .read a (.value b) :: readsOf (a + 1) bs

/-- The state in which a STEP executes the instruction of these bytes: the command taken, the reads that fetched the
bytes recorded, the trace record put out, everything else as it was (PC still the opcode's address). -/
def State.fetched (s : State) (bs : List Byte) : State :=
  { s with log := s.log ++ readsOf s.pc bs, commands := s.commands.tail, trace := some (traceRecord s (bs.headD 0)) }

/-- The requests of an instruction past its own bytes, under FlatRAM (20_memory R68). -/
def dataRequests (i : Instr) (s : State) : List Transaction :=
  match i with
  | .ldaZp ea | .ldaAbs ea | .ldxZp ea | .ldxAbs ea | .ldyZp ea | .ldyAbs ea => [.read ea (.value (s.byteAt ea))]
  | .staZp ea | .staAbs ea => [.write ea s.a .completed]
  | .stxZp ea | .stxAbs ea => [.write ea s.x .completed]
  | .styZp ea | .styAbs ea => [.write ea s.y .completed]
  | .ldaImm _ | .ldxImm _ | .ldyImm _ => []
  | .bpl _ | .bmi _ | .bvc _ | .bvs _ | .bcc _ | .bcs _ | .bne _ | .beq _ => []
  | .clc | .sec | .cli | .sei | .clv | .cld | .sed => []

/-- A STEP is next, issued from the list or by the host on its own, and the state passes validation. -/
def State.stepReady (s : State) : Prop := (nextCommand s).1 = .step ∧ getFlag s.p .always = true

/-! ## Frames -/

/-- A, X, Y and SP are as before. -/
def sameRegisters (s t : State) : Prop := t.a = s.a ∧ t.x = s.x ∧ t.y = s.y ∧ t.sp = s.sp

/-- Every byte of memory reads as before. -/
def sameMemory (s t : State) : Prop := ∀ a, t.byteAt a = s.byteAt a

/-- Every byte of memory but the one at `ea` reads as before. -/
def sameMemoryExcept (ea : Addr) (s t : State) : Prop := ∀ a, a ≠ ea → t.byteAt a = s.byteAt a

/-- Every flag not listed is as before. -/
def sameFlagsExcept (fs : List Flag) (s t : State) : Prop := ∀ f, f ∉ fs → getFlag t.p f = getFlag s.p f

/-- The model's own fields that no instruction touches: the memory map, the host's commands, the trace record. -/
def sameSurroundings (s t : State) : Prop := t.regions = s.regions ∧ t.commands = s.commands ∧ t.trace = s.trace

/-- The six fields are as before. -/
def sameFields (s t : State) : Prop := t.snapshot = s.snapshot

/-! ## The text of an assembler line (30_encoding R101, R102) -/

/-- The character writes the digit v of a base up to 16, its letters capital or small (log entry 13). -/
def DigitOf (base : Nat) (c : Char) (v : Nat) : Prop :=
  v < base ∧
    ((v < 10 ∧ c.toNat = '0'.toNat + v) ∨
      (10 ≤ v ∧ v < 16 ∧ (c.toNat = 'A'.toNat + (v - 10) ∨ c.toNat = 'a'.toNat + (v - 10))))

/-- The characters write a decimal number of one digit or more. -/
inductive DecimalText : List Char → Nat → Prop where
  | one {c : Char} {v : Nat} (h : DigitOf 10 c v) : DecimalText [c] v
  | more {cs : List Char} {n : Nat} {c : Char} {v : Nat} (hs : DecimalText cs n) (h : DigitOf 10 c v) :
      DecimalText (cs ++ [c]) (10 * n + v)

/-- The characters after the mnemonic's space write the operand. -/
inductive OperandText : List Char → AsmOperand → Prop where
  | immediate {c d : Char} {x y : Nat} (hc : DigitOf 16 c x) (hd : DigitOf 16 d y) :
      OperandText ['#', '$', c, d] (.immediate (BitVec.ofNat 8 (16 * x + y)))
  | twoDigits {c d : Char} {x y : Nat} (hc : DigitOf 16 c x) (hd : DigitOf 16 d y) :
      OperandText ['$', c, d] (.twoDigits (BitVec.ofNat 8 (16 * x + y)))
  | fourDigits {c d e f : Char} {x y z w : Nat} (hc : DigitOf 16 c x) (hd : DigitOf 16 d y) (he : DigitOf 16 e z)
      (hf : DigitOf 16 f w) :
      OperandText ['$', c, d, e, f] (.fourDigits (BitVec.ofNat 16 (4096 * x + 256 * y + 16 * z + w)))
  | rawOffset {ds : List Char} {n : Nat} (h : DecimalText ds n) : OperandText ('*' :: ds) (.rawOffset n)
  | negativeOffset {ds : List Char} {n : Nat} (h : DecimalText ds n) :
      OperandText ('*' :: '-' :: ds) (.rawOffset (-(n : Int)))

end Sys2Proof.Machine
end

