-- ==== Sys2Proof/Certificates/Slice0/Obligations.lean ====
section
/-! DEFINITION. The statements for the provers. -/

open Sys2Proof Sys2Proof.Machine

/-! ## Encoding -/

/-- R90, R92, R95: every well-formed instruction is read back from its own bytes, whatever follows them. -/
def Obligations.DecodeOfEncode : Prop :=
  ∀ (i : Instr) (rest : List Byte), i.wellFormed = true → decode (encode i ++ rest) = .instr i rest

/-- R92, R100: what the decoder reads is well formed, and its bytes are the bytes consumed. -/
def Obligations.EncodeOfDecode : Prop :=
  ∀ (bs rest : List Byte) (i : Instr), decode bs = .instr i rest → i.wellFormed = true ∧ encode i ++ rest = bs

/-- R95, R99: the decoder knows exactly the thirty opcode bytes and refuses each of the other 226 by name. -/
def Obligations.ThirtyKnownOpcodes : Prop :=
  let known : List Byte :=
    [0x10, 0x18, 0x30, 0x38, 0x50, 0x58, 0x70, 0x78, 0x84, 0x85, 0x86, 0x8C, 0x8D, 0x8E, 0x90, 0xA0, 0xA2, 0xA4, 0xA5,
     0xA6, 0xA9, 0xAC, 0xAD, 0xAE, 0xB0, 0xB8, 0xD0, 0xD8, 0xF0, 0xF8]
  (∀ op rest, decode (op :: rest) = .refused (.unknownOpcode op) ↔ op ∉ known) ∧
  (∀ op b₁ b₂ rest, op ∈ known → ∃ i left, decode (op :: b₁ :: b₂ :: rest) = .instr i left) ∧ known.Nodup ∧
  known.length = 30

/-- R90, R93: two instructions decoded from the same opcode byte have the same length, whatever follows it, and that many
bytes are consumed. -/
def Obligations.OpcodeDecidesLength : Prop :=
  ∀ (op : Byte) (r₁ r₂ l₁ l₂ : List Byte) (i₁ i₂ : Instr),
    decode (op :: r₁) = .instr i₁ l₁ → decode (op :: r₂) = .instr i₂ l₂ →
    i₁.size = i₂.size ∧ (op :: r₁).length = i₁.size + l₁.length

/-- R91, R95: words of every family, written from the spec's encodings and worked examples, decode to what they stand for. -/
def Obligations.SpecWordsDecode : Prop :=
  decode [0xA9, 0x05] = .instr (.ldaImm 0x05) [] ∧ decode [0xA6, 0xFF] = .instr (.ldxZp 0x00FF) [] ∧
  decode [0xAC, 0x00, 0x02] = .instr (.ldyAbs 0x0200) [] ∧ decode [0x85, 0x10] = .instr (.staZp 0x0010) [] ∧
  decode [0x8E, 0x34, 0x12] = .instr (.stxAbs 0x1234) [] ∧ decode [0x30, 0xFF] = .instr (.bmi 0xFFFF) [] ∧
  decode [0xD0, 0x7F] = .instr (.bne 0x007F) [] ∧ decode [0xB8] = .instr .clv [] ∧
  decode [0x98] = .refused (.unknownOpcode 0x98) ∧ decode [0x89, 0x00] = .refused (.unknownOpcode 0x89)

/-! ## The status register -/

/-- R39: `setFlag` of any bit replaces that bit and no other, `clearFlag` is `setFlag` of false, and whatever an
instruction leaves in P it got there by setFlag of single bits (at most two: N and Z). -/
def Obligations.SetFlagOneBit : Prop :=
  (∀ (p : Byte) (k j : Fin 8) (b : Bool), getBit (setBit p k b) j = if j = k then b else getBit p j) ∧
  (∀ (p : Byte) (k j : Fin 8), getBit (clearBit p k) j = if j = k then false else getBit p j) ∧
  (∀ (i : Instr) (s t : State), exec i s = .next t →
    t.p = s.p ∨ (∃ f b, t.p = setFlag s.p f b) ∨ (∃ n z, t.p = setFlag (setFlag s.p .n n) .z z))

/-- R170: over all 256 values `nz` sets N and Z as the rule's table says and touches no other bit. -/
def Obligations.NzGenerator : Prop :=
  ∀ (v p : Byte),
    getFlag (nz v p) .n = decide (128 ≤ v.toNat) ∧
    getFlag (nz v p) .z = decide (v.toNat = 0) ∧
    ∀ f, f ≠ .n → f ≠ .z → getFlag (nz v p) f = getFlag p f

/-- R41: eight characters; the k-th describes bit 7 - k, its letter of NV1BDIZC when the bit is 1 and a dash when it is 0. -/
def Obligations.StatusStringRule : Prop :=
  ∀ (p : Byte), (statusString p).length = 8 ∧
    ∀ (k : Nat) (c : Char), ['N', 'V', '1', 'B', 'D', 'I', 'Z', 'C'][k]? = some c →
      (statusString p)[k]? = some (if p.getLsbD (7 - k) then c else '-')

/-- R40: which instruction can change which flag; B and Always are changed by none. -/
def Obligations.FlagWriters : Prop :=
  ∀ (i : Instr) (s t : State) (f : Flag), exec i s = .next t → getFlag t.p f ≠ getFlag s.p f →
    (f = .v ∧ i = .clv) ∨ (f = .d ∧ (i = .sed ∨ i = .cld)) ∨ (f = .i ∧ (i = .sei ∨ i = .cli)) ∨
    (f = .c ∧ (i = .sec ∨ i = .clc)) ∨
    ((f = .n ∨ f = .z) ∧
      ((∃ v, i = .ldaImm v ∨ i = .ldxImm v ∨ i = .ldyImm v) ∨
       (∃ ea, i = .ldaZp ea ∨ i = .ldxZp ea ∨ i = .ldyZp ea ∨ i = .ldaAbs ea ∨ i = .ldxAbs ea ∨ i = .ldyAbs ea)))

/-- R235 (its inference): a STEP never makes V 0. -/
def Obligations.OverflowNeverCleared : Prop :=
  ∀ (s t : State), (nextCommand s).1 = .step → getFlag s.p .v = true → step s = .next t → getFlag t.p .v = true

/-- R213: after CLV a BVS is taken and a BVC is not. -/
def Obligations.ClvThenOverflowBranches : Prop :=
  ∀ (off : Addr) (s t : State), exec .clv s = .next t →
    (∃ u, exec (.bvs off) t = .next u ∧ u.pc = t.pc + 1 + off) ∧
    (∃ u, exec (.bvc off) t = .next u ∧ u.pc = t.pc + 2)

/-- R42, R43: D, I and B have no effect on what an instruction does to anything but that flag's own bit: A, X, Y, SP, PC,
memory, the requests and the response come out the same. -/
def Obligations.DecimalInterruptBreakInert : Prop :=
  ∀ (i : Instr) (s t : State) (f : Flag) (b : Bool), f ∈ [Flag.d, Flag.i, Flag.b] → exec i s = .next t →
    ∃ u, exec i { s with p := setFlag s.p f b } = .next u ∧
      sameRegisters t u ∧ u.pc = t.pc ∧ u.mem = t.mem ∧ u.log = t.log ∧ u.response = t.response ∧
      ∀ g, g ≠ f → getFlag u.p g = getFlag t.p g

/-! ## Memory -/

/-- The model's own form of memory (log entry 3; 20_memory R60, R73): two memories in canonical form that list the same byte for every address are the same data. -/
def Obligations.CanonicalMemoriesEqual : Prop :=
  ∀ (m₁ m₂ : Memory), m₁.wf → m₂.wf → (∀ a, m₁.lookup a = m₂.lookup a) → m₁ = m₂

/-- R64, R66: the 16-bit read is the low byte, then the high byte at the next address mod 65536; a fault of the first
read keeps the second from being made. -/
def Obligations.Read16LowThenHigh : Prop :=
  ∀ (a : Addr) (s : State),
    (∀ lo hi, s.readAnswer a = .value lo → (s.record (.read a (.value lo))).readAnswer (a + 1) = .value hi →
      ∃ v t, memRead16 a s = .ok v t ∧ v.toNat = 256 * hi.toNat + lo.toNat ∧
        t = { s with log := s.log ++ [.read a (.value lo), .read (a + 1) (.value hi)] }) ∧
    (s.readAnswer a = .fault → memRead16 a s = .fault a .read { s with log := s.log ++ [.read a .fault] }) ∧
    (∀ lo, s.readAnswer a = .value lo → (s.record (.read a (.value lo))).readAnswer (a + 1) = .fault →
      memRead16 a s = .fault (a + 1) .read
        { s with log := s.log ++ [.read a (.value lo), .read (a + 1) .fault] })

/-- R73: in RAM a completed write is what the next read of that address is answered with, and every other address of
plain memory answers as before. -/
def Obligations.RamReadsLastWrite : Prop :=
  ∀ (a : Addr) (v : Byte) (s : State), s.kindAt a = .ram →
    ∃ t, memWrite a v s = .ok () t ∧ t.readAnswer a = .value v ∧
      ∀ b, b ≠ a → t.byteAt b = s.byteAt b ∧ (s.readable b = true → t.readAnswer b = s.readAnswer b)

/-- R62: a write to a read-only location completes and changes nothing but the record of requests. -/
def Obligations.ReadOnlyWriteIgnored : Prop :=
  ∀ (a : Addr) (v : Byte) (s : State), s.kindAt a = .readOnly →
    memWrite a v s = .ok () { s with log := s.log ++ [.write a v .completed] }

/-- R75, R312: a store to the next instruction's opcode, by any of the six stores, is what the next STEP fetches. -/
def Obligations.StoreSeenByNextFetch : Prop :=
  ∀ (i : Instr) (r : Reg) (ea : Addr) (s t u : State),
    (i, r, ea) ∈ [(Instr.staZp ea, Reg.a, s.pc + 2), (Instr.stxZp ea, Reg.x, s.pc + 2), (Instr.styZp ea, Reg.y, s.pc + 2),
                  (Instr.staAbs ea, Reg.a, s.pc + 3), (Instr.stxAbs ea, Reg.x, s.pc + 3),
                  (Instr.styAbs ea, Reg.y, s.pc + 3)] →
    s.stepReady → s.kindAt ea = .ram → exec i s = .next t → step t = .next u →
    t.pc = ea ∧ ∃ record, u.trace = some record ∧ record.opcode = s.reg r ∧ record.pc = ea

/-! ## The step -/

/-- R120, R126: when the bytes at PC (in plain memory) are those of an instruction i, STEP is exec of i, in the state
where the reads that fetched the bytes are recorded and the trace record is out; PC is still the opcode's address. -/
def Obligations.StepRunsDecoded : Prop :=
  ∀ (s : State) (i : Instr) (bs : List Byte), s.stepReady → s.holds s.pc bs → decode bs = .instr i [] →
    step s = exec i (s.fetched bs)

/-- R121: every STEP, from a corrupted state too, begins with one read at PC. If it is answered with a value, that value
is the opcode of the trace record; if it faults, the outcome is MemoryFault(pc), no trace record is emitted and no
register, PC or byte of memory changes. -/
def Obligations.StepFetchesOpcode : Prop :=
  ∀ (s : State), (nextCommand s).1 = .step →
    (∀ op t, s.readAnswer s.pc = .value op → step s = .next t →
      (∃ later, t.log = s.log ++ .read s.pc (.value op) :: later) ∧ ∃ r, t.trace = some r ∧ r.opcode = op) ∧
    (s.readAnswer s.pc = .fault →
      step s = .next { s with log := s.log ++ [.read s.pc .fault], commands := s.commands.tail, trace := none,
                              response := some (.step (.memoryFault s.pc .read)) })

/-- R285: a STEP whose opcode fetch succeeds emits one record of the pre-execution values, whatever its outcome; a STEP
whose opcode fetch faults emits none. -/
def Obligations.StepEmitsTrace : Prop :=
  ∀ (s t : State), (nextCommand s).1 = .step → step s = .next t →
    (∀ op, s.readAnswer s.pc = .value op →
      ∃ r, t.trace = some r ∧ r.pc = s.pc ∧ r.opcode = op ∧ r.regs.a = s.a ∧ r.regs.x = s.x ∧ r.regs.y = s.y ∧
        r.regs.sp = s.sp ∧ r.regs.p = s.p ∧ r.regs.pc = s.pc ∧ r.status = statusString s.p) ∧
    (s.readAnswer s.pc = .fault → t.trace = none)

/-- R124, R262, R265: from a state whose Always flag is 0 a STEP whose opcode fetch succeeds ends in CorruptedState,
whatever the opcode; nothing changes and no request but the opcode fetch is made. (That a terminal outcome is a next state
with the outcome in `response` is the model's form of it: log entry 1.) -/
def Obligations.StepCorruptedState : Prop :=
  ∀ (s : State) (op : Byte), (nextCommand s).1 = .step → getFlag s.p .always = false → s.readAnswer s.pc = .value op →
    ∃ t, step s = .next t ∧ t.response = some (.step (.corruptedState [.alwaysFlagClear])) ∧
      sameFields s t ∧ t.mem = s.mem ∧ t.log = s.log ++ [.read s.pc (.value op)]

/-- R99, R127, R261: an unknown opcode ends the STEP with UnknownOpcode and PC just past the opcode; A, X, Y, SP, P and
memory are unchanged and no request follows the opcode fetch. (A next state: log entry 1.) -/
def Obligations.StepUnknownOpcode : Prop :=
  ∀ (s : State) (op : Byte), s.stepReady → s.readAnswer s.pc = .value op →
    decode [op] = .refused (.unknownOpcode op) →
    ∃ t, step s = .next t ∧ t.response = some (.step (.unknownOpcode op)) ∧ t.pc = s.pc + 1 ∧
      sameRegisters s t ∧ t.p = s.p ∧ t.mem = s.mem ∧ t.log = s.log ++ [.read s.pc (.value op)]

/-- R132: a STEP that ends with MemoryFault has written none of A, X, Y, SP and P. -/
def Obligations.MemoryFaultKeepsRegisters : Prop :=
  ∀ (s t : State) (a : Addr) (k : AccessKind), (nextCommand s).1 = .step → step s = .next t →
    t.response = some (.step (.memoryFault a k)) → sameRegisters s t ∧ t.p = s.p

/-- R132, R265, 41_addressing R150-R152, 43_branch R202: where the read of the byte just past the opcode is answered with
a fault, a valid state's STEP of any opcode that takes an operand ends with MemoryFault at that address, with two requests
made; where it is the second operand byte of an absolute form, with three, the data request not among them. -/
def Obligations.OperandFetchFault : Prop :=
  ∀ (s : State) (op : Byte) (i : Instr), s.stepReady → s.readAnswer s.pc = .value op →
    ((decode [op, 0, 0] = .instr i [] ∨ decode [op, 0] = .instr i []) →
      (s.record (.read s.pc (.value op))).readAnswer (s.pc + 1) = .fault →
      ∃ t, step s = .next t ∧ t.response = some (.step (.memoryFault (s.pc + 1) .read)) ∧ sameRegisters s t ∧
        t.p = s.p ∧ t.mem = s.mem ∧ t.log = s.log ++ [.read s.pc (.value op), .read (s.pc + 1) .fault]) ∧
    (∀ lo, decode [op, 0, 0] = .instr i [] →
      (s.record (.read s.pc (.value op))).readAnswer (s.pc + 1) = .value lo →
      ((s.record (.read s.pc (.value op))).record (.read (s.pc + 1) (.value lo))).readAnswer (s.pc + 2) = .fault →
      ∃ t, step s = .next t ∧ t.response = some (.step (.memoryFault (s.pc + 2) .read)) ∧ sameRegisters s t ∧
        t.p = s.p ∧ t.mem = s.mem ∧
        t.log = s.log ++ [.read s.pc (.value op), .read (s.pc + 1) (.value lo), .read (s.pc + 2) .fault])

/-- R68: under FlatRAM a STEP of an instruction makes exactly its own bytes' reads and then its data request, in order. -/
def Obligations.StepRequestSequence : Prop :=
  ∀ (s t : State) (i : Instr) (bs : List Byte), s.stepReady → s.regions = [] → s.holds s.pc bs →
    decode bs = .instr i [] → step s = .next t → t.log = s.log ++ readsOf s.pc bs ++ dataRequests i s

/-- R128, test vector X11: under FlatRAM every one of the thirty instructions' STEPs answers Continue. -/
def Obligations.FlatRamStepContinues : Prop :=
  ∀ (s : State) (i : Instr) (bs : List Byte), s.stepReady → s.regions = [] → s.holds s.pc bs →
    decode bs = .instr i [] → ∃ t, step s = .next t ∧ t.response = some (.step .continues)

/-- R131, R46: no halt latch and no state beyond the six fields: a STEP does not depend on the last response or trace
record (the model's own fields: log entry 10), so a terminal outcome does not change what the next STEP does. -/
def Obligations.NoHaltLatch : Prop :=
  ∀ (s : State) (r : Option Response) (tr : Option TraceRecord), (nextCommand s).1 = .step →
    step { s with response := r, trace := tr } = step s

/-- R313, R314: a step always answers a next state where every request is answered: with no device in the memory map, no
command leaves the machine stuck (log entries 5, 16), and none is ever refused. -/
def Obligations.EveryCommandAnswers : Prop :=
  (∀ (s : State), (∀ r ∈ s.regions, r.kind ≠ .device) → ∃ t, step s = .next t) ∧
  (∀ (s : State) (r : Refusal), step s ≠ .refused r)

/-- R315, 92_eei D7: the first terminal outcome of a run's STEPs ends it: UnknownOpcode at HaltAddress normally, any other
as a fault; Continue leaves it running. Whatever the host does after the end, the run stays ended as it did, and every
terminal outcome stays in the record. (That the run is classified by the first outcome of a record: log entry 19.) -/
def Obligations.RunEndsAtHaltAddress : Prop :=
  (∀ (halt : Addr) (r : Run) (t : State), r.stuck = false → r.terminals = [] → (nextCommand r.state).1 = .step →
    step r.state = .next t →
    r.next.state = t ∧ (t.response = some (.step .continues) → r.next.status halt = .running) ∧
    (∀ op, t.response = some (.step (.unknownOpcode op)) →
      r.next.status halt = if r.state.pc = halt then .normalEnd else .faulted) ∧
    (∀ vs, t.response = some (.step (.corruptedState vs)) → r.next.status halt = .faulted) ∧
    (∀ a k, t.response = some (.step (.memoryFault a k)) → r.next.status halt = .faulted)) ∧
  (∀ (halt : Addr) (r : Run) (n : Nat),
    (r.status halt ≠ .running → (r.after n).status halt = r.status halt) ∧ r.terminals <+: (r.after n).terminals)

/-! ## Loads: LDA, LDX, LDY -/

/-- R171, R173, R176, R179: LDA, LDX, LDY immediate complete in every state: the register holds the byte, N and Z are
recomputed, PC is past both bytes, no request is made, all else is as before. -/
def Obligations.ImmediateLoads : Prop :=
  ∀ (i : Instr) (r : Reg) (v : Byte) (s : State),
    (i, r) ∈ [(Instr.ldaImm v, Reg.a), (Instr.ldxImm v, Reg.x), (Instr.ldyImm v, Reg.y)] →
    ∃ t, exec i s = .next t ∧ t.reg r = v ∧ (∀ q, q ≠ r → t.reg q = s.reg q) ∧ t.sp = s.sp ∧
      getFlag t.p .n = decide (128 ≤ v.toNat) ∧ getFlag t.p .z = decide (v = 0) ∧ sameFlagsExcept [.n, .z] s t ∧
      t.pc = s.pc + 2 ∧ t.mem = s.mem ∧ t.log = s.log ∧ sameSurroundings s t ∧ t.response = some (.step .continues)

/-- R171, R174, R177, R180: LDA, LDX, LDY zero-page complete wherever the data read is answered with a value. -/
def Obligations.ZeroPageLoads : Prop :=
  ∀ (i : Instr) (r : Reg) (ea : Addr) (v : Byte) (s : State),
    (i, r) ∈ [(Instr.ldaZp ea, Reg.a), (Instr.ldxZp ea, Reg.x), (Instr.ldyZp ea, Reg.y)] →
    s.readAnswer ea = .value v →
    ∃ t, exec i s = .next t ∧ t.reg r = v ∧ (∀ q, q ≠ r → t.reg q = s.reg q) ∧ t.sp = s.sp ∧
      getFlag t.p .n = decide (128 ≤ v.toNat) ∧ getFlag t.p .z = decide (v = 0) ∧ sameFlagsExcept [.n, .z] s t ∧
      t.pc = s.pc + 2 ∧ t.mem = s.mem ∧ t.log = s.log ++ [.read ea (.value v)] ∧ sameSurroundings s t ∧
      t.response = some (.step .continues)

/-- R171, R175, R178, R181: LDA, LDX, LDY absolute complete wherever the data read is answered with a value. -/
def Obligations.AbsoluteLoads : Prop :=
  ∀ (i : Instr) (r : Reg) (ea : Addr) (v : Byte) (s : State),
    (i, r) ∈ [(Instr.ldaAbs ea, Reg.a), (Instr.ldxAbs ea, Reg.x), (Instr.ldyAbs ea, Reg.y)] →
    s.readAnswer ea = .value v →
    ∃ t, exec i s = .next t ∧ t.reg r = v ∧ (∀ q, q ≠ r → t.reg q = s.reg q) ∧ t.sp = s.sp ∧
      getFlag t.p .n = decide (128 ≤ v.toNat) ∧ getFlag t.p .z = decide (v = 0) ∧ sameFlagsExcept [.n, .z] s t ∧
      t.pc = s.pc + 3 ∧ t.mem = s.mem ∧ t.log = s.log ++ [.read ea (.value v)] ∧ sameSurroundings s t ∧
      t.response = some (.step .continues)

/-- R171, R132, R263: where the data read faults the outcome is MemoryFault of that address, and neither the register nor
the flags nor memory are written. -/
def Obligations.LoadFaults : Prop :=
  ∀ (i : Instr) (ea : Addr) (s : State),
    i ∈ [Instr.ldaZp ea, .ldxZp ea, .ldyZp ea, .ldaAbs ea, .ldxAbs ea, .ldyAbs ea] → s.readAnswer ea = .fault →
    ∃ t, exec i s = .next t ∧ sameRegisters s t ∧ t.p = s.p ∧ t.mem = s.mem ∧
      t.log = s.log ++ [.read ea .fault] ∧ t.response = some (.step (.memoryFault ea .read))

/-- The frame of the nine loads, on every path to a next state: the other two registers, SP, every flag but N and Z, every
byte of memory and the surroundings are as before. -/
def Obligations.LoadFrame : Prop :=
  ∀ (i : Instr) (r : Reg) (v : Byte) (ea : Addr) (s t : State),
    (i, r) ∈ [(Instr.ldaImm v, Reg.a), (Instr.ldaZp ea, Reg.a), (Instr.ldaAbs ea, Reg.a),
              (Instr.ldxImm v, Reg.x), (Instr.ldxZp ea, Reg.x), (Instr.ldxAbs ea, Reg.x),
              (Instr.ldyImm v, Reg.y), (Instr.ldyZp ea, Reg.y), (Instr.ldyAbs ea, Reg.y)] →
    exec i s = .next t →
    (∀ q, q ≠ r → t.reg q = s.reg q) ∧ t.sp = s.sp ∧ sameFlagsExcept [.n, .z] s t ∧ sameMemory s t ∧
      sameSurroundings s t

/-! ## Stores: STA, STX, STY -/

/-- R172, R182, R184, R186: STA, STX, STY zero-page complete wherever the write is completed: one write of the register's
value, stored in RAM and ignored by a read-only location; no register or flag is written. -/
def Obligations.ZeroPageStores : Prop :=
  ∀ (i : Instr) (r : Reg) (ea : Addr) (s : State),
    (i, r) ∈ [(Instr.staZp ea, Reg.a), (Instr.stxZp ea, Reg.x), (Instr.styZp ea, Reg.y)] →
    s.writeAnswer ea (s.reg r) = .completed →
    ∃ t, exec i s = .next t ∧ (s.kindAt ea = .ram → t.byteAt ea = s.reg r) ∧
      (s.kindAt ea = .readOnly → t.byteAt ea = s.byteAt ea) ∧ sameMemoryExcept ea s t ∧ sameRegisters s t ∧
      t.p = s.p ∧ t.pc = s.pc + 2 ∧ t.log = s.log ++ [.write ea (s.reg r) .completed] ∧ sameSurroundings s t ∧
      t.response = some (.step .continues)

/-- R172, R183, R185, R187: STA, STX, STY absolute complete wherever the write is completed. -/
def Obligations.AbsoluteStores : Prop :=
  ∀ (i : Instr) (r : Reg) (ea : Addr) (s : State),
    (i, r) ∈ [(Instr.staAbs ea, Reg.a), (Instr.stxAbs ea, Reg.x), (Instr.styAbs ea, Reg.y)] →
    s.writeAnswer ea (s.reg r) = .completed →
    ∃ t, exec i s = .next t ∧ (s.kindAt ea = .ram → t.byteAt ea = s.reg r) ∧
      (s.kindAt ea = .readOnly → t.byteAt ea = s.byteAt ea) ∧ sameMemoryExcept ea s t ∧ sameRegisters s t ∧
      t.p = s.p ∧ t.pc = s.pc + 3 ∧ t.log = s.log ++ [.write ea (s.reg r) .completed] ∧ sameSurroundings s t ∧
      t.response = some (.step .continues)

/-- R132, R263, U5: where the write faults the outcome is MemoryFault of that address, A, X, Y, SP and P are unchanged,
and the byte there is the old one or the new one. -/
def Obligations.StoreFaults : Prop :=
  ∀ (i : Instr) (r : Reg) (ea : Addr) (s : State),
    (i, r) ∈ [(Instr.staZp ea, Reg.a), (Instr.staAbs ea, Reg.a), (Instr.stxZp ea, Reg.x), (Instr.stxAbs ea, Reg.x),
              (Instr.styZp ea, Reg.y), (Instr.styAbs ea, Reg.y)] →
    s.writeAnswer ea (s.reg r) = .fault →
    ∃ t, exec i s = .next t ∧ sameRegisters s t ∧ t.p = s.p ∧ sameMemoryExcept ea s t ∧
      (t.byteAt ea = s.byteAt ea ∨ t.byteAt ea = s.reg r) ∧ t.log = s.log ++ [.write ea (s.reg r) .fault] ∧
      t.response = some (.step (.memoryFault ea .write))

/-- The frame of the six stores, on every path to a next state: A, X, Y, SP and P, every byte of memory but the one at the
effective address and the surroundings are as before. -/
def Obligations.StoreFrame : Prop :=
  ∀ (i : Instr) (ea : Addr) (s t : State),
    i ∈ [Instr.staZp ea, .staAbs ea, .stxZp ea, .stxAbs ea, .styZp ea, .styAbs ea] → exec i s = .next t →
    sameRegisters s t ∧ t.p = s.p ∧ sameMemoryExcept ea s t ∧ sameSurroundings s t

/-! ## Branches -/

/-- R201-R210: each of the eight branches completes in every state: taken when its flag has its expected value, PC is
op + 1 + offset (the origin is the offset byte), else op + 2; no request past its bytes, and nothing but PC changes. -/
def Obligations.Branches : Prop :=
  ∀ (i : Instr) (f : Flag) (expected : Bool) (off : Addr) (s : State),
    (i, f, expected) ∈ [(Instr.bpl off, Flag.n, false), (Instr.bmi off, Flag.n, true), (Instr.bvc off, Flag.v, false),
                        (Instr.bvs off, Flag.v, true), (Instr.bcc off, Flag.c, false), (Instr.bcs off, Flag.c, true),
                        (Instr.bne off, Flag.z, false), (Instr.beq off, Flag.z, true)] →
    ∃ t, exec i s = .next t ∧ (getFlag s.p f = expected → t.pc = s.pc + 1 + off) ∧
      (getFlag s.p f ≠ expected → t.pc = s.pc + 2) ∧ sameRegisters s t ∧ t.p = s.p ∧ t.mem = s.mem ∧ t.log = s.log ∧
      sameSurroundings s t ∧ t.response = some (.step .continues)

/-- The frame of the eight branches. -/
def Obligations.BranchFrame : Prop :=
  ∀ (i : Instr) (off : Addr) (s t : State),
    i ∈ [Instr.bpl off, .bmi off, .bvc off, .bvs off, .bcc off, .bcs off, .bne off, .beq off] → exec i s = .next t →
    sameRegisters s t ∧ t.p = s.p ∧ sameMemory s t ∧ t.log = s.log ∧ sameSurroundings s t

/-- R211: the taken targets of the corner offsets, and that the addresses a taken branch can reach are exactly the 256
from op - 127 to op + 128 (mod 65536). -/
def Obligations.BranchTargets : Prop :=
  ∀ (op : Addr), takenTarget op (sext16 0x00) = op + 1 ∧ takenTarget op (sext16 0x01) = op + 2 ∧
    takenTarget op (sext16 0x02) = op + 3 ∧ takenTarget op (sext16 0x7F) = op + 128 ∧
    takenTarget op (sext16 0x80) = op - 127 ∧ takenTarget op (sext16 0xFE) = op - 1 ∧
    takenTarget op (sext16 0xFF) = op ∧
    ∀ target, (∃ d, takenTarget op (sext16 d) = target) ↔ (target - (op - 127)).toNat < 256

/-- R211, test program P6: in plain memory a taken branch with offset byte 0xFF, of any of the eight, comes back to itself
with its bytes, its flag and the Always flag as they were, so that a later STEP takes it again. -/
def Obligations.SelfBranchLoops : Prop :=
  ∀ (s t : State) (op : Byte) (f : Flag) (expected : Bool),
    (op, f, expected) ∈ [((0x10 : Byte), Flag.n, false), (0x30, Flag.n, true), (0x50, Flag.v, false),
                         (0x70, Flag.v, true), (0x90, Flag.c, false), (0xB0, Flag.c, true), (0xD0, Flag.z, false),
                         (0xF0, Flag.z, true)] →
    s.stepReady → s.holds s.pc [op, 0xFF] → getFlag s.p f = expected → step s = .next t →
    t.pc = s.pc ∧ t.holds t.pc [op, 0xFF] ∧ getFlag t.p f = expected ∧ getFlag t.p .always = true ∧
      t.commands = s.commands.tail ∧ t.response = some (.step .continues)

/-! ## Flag operations -/

/-- R230-R237: each flag op completes in every state, writes its one flag (CLV writes V = 1), leaves PC just past the
opcode and changes nothing else; it makes no request. -/
def Obligations.FlagOps : Prop :=
  ∀ (i : Instr) (f : Flag) (b : Bool) (s : State),
    (i, f, b) ∈ [(Instr.clc, Flag.c, false), (Instr.sec, Flag.c, true), (Instr.cli, Flag.i, false),
                 (Instr.sei, Flag.i, true), (Instr.clv, Flag.v, true), (Instr.cld, Flag.d, false),
                 (Instr.sed, Flag.d, true)] →
    ∃ t, exec i s = .next t ∧ getFlag t.p f = b ∧ sameFlagsExcept [f] s t ∧ t.pc = s.pc + 1 ∧ sameRegisters s t ∧
      t.mem = s.mem ∧ t.log = s.log ∧ sameSurroundings s t ∧ t.response = some (.step .continues)

/-- The frame of the seven flag ops. -/
def Obligations.FlagOpFrame : Prop :=
  ∀ (i : Instr) (f : Flag) (s t : State),
    (i, f) ∈ [(Instr.clc, Flag.c), (Instr.sec, Flag.c), (Instr.cli, Flag.i), (Instr.sei, Flag.i), (Instr.clv, Flag.v),
              (Instr.cld, Flag.d), (Instr.sed, Flag.d)] →
    exec i s = .next t →
    sameFlagsExcept [f] s t ∧ sameRegisters s t ∧ sameMemory s t ∧ t.log = s.log ∧ sameSurroundings s t

/-! ## The whole machine -/

/-- R32: SP changes only by POWER_ON (to 0xFF) and SNAPSHOT_LOAD (to the value loaded): no instruction and no other
command writes it. -/
def Obligations.StackPointerWriters : Prop :=
  ∀ (s t : State), step s = .next t →
    t.sp = s.sp ∨ ((nextCommand s).1 = .powerOn ∧ t.sp = 0xFF) ∨ ∃ r, (nextCommand s).1 = .snapshotLoad r ∧ t.sp = r.sp

/-- R37: no STEP, RESET, POWER_ON, VALIDATE or SNAPSHOT_READ clears the Always flag. -/
def Obligations.AlwaysFlagOnlyBySnapshot : Prop :=
  ∀ (s t : State), step s = .next t → getFlag s.p .always = true → getFlag t.p .always = false →
    ∃ r, (nextCommand s).1 = .snapshotLoad r ∧ getFlag r.p .always = false

/-- R37, R130 and the canonical form of memory: from every state that meets the invariant a step gives one that meets it. -/
def Obligations.StepKeepsInvariant : Prop :=
  ∀ (s t : State), s.Inv → step s = .next t → t.Inv

/-- R300: the state after POWER_ON meets the invariant. -/
def Obligations.ResetMeetsInvariant : Prop := State.reset.Inv

/-- 00_scope R9 (the list of commands and the map are the model's own fields: log entries 4, 9): a step never changes the memory map, and takes one command off the host's list if there is one. -/
def Obligations.StepTakesOneCommand : Prop :=
  ∀ (s t : State), step s = .next t → t.regions = s.regions ∧ t.commands = s.commands.tail

/-! ## The other commands -/

/-- R300: POWER_ON gives the fresh values whatever stood before, makes no request, answers nothing, and the state passes
validation. -/
def Obligations.PowerOnFresh : Prop :=
  ∀ (s : State) (rest : List Command), s.commands = .powerOn :: rest →
    ∃ t, step s = .next t ∧ t.a = 0 ∧ t.x = 0 ∧ t.y = 0 ∧ t.sp = 0xFF ∧ t.p = 0x20 ∧ t.pc = 0 ∧ t.mem = s.mem ∧
      t.log = s.log ∧ t.response = none ∧ validateState t = []

/-- R303: RESET loads PC from 0xFFFC (low) and 0xFFFD (high), touches no other register, in a corrupted state too, and
returns Ok. -/
def Obligations.ResetLoadsVector : Prop :=
  ∀ (s : State) (rest : List Command) (lo hi : Byte), s.commands = .reset :: rest →
    s.readAnswer 0xFFFC = .value lo → (s.record (.read 0xFFFC (.value lo))).readAnswer 0xFFFD = .value hi →
    ∃ t, step s = .next t ∧ t.pc.toNat = 256 * hi.toNat + lo.toNat ∧ sameRegisters s t ∧ t.p = s.p ∧ t.mem = s.mem ∧
      t.log = s.log ++ [.read 0xFFFC (.value lo), .read 0xFFFD (.value hi)] ∧
      t.response = some (.reset .continues)

/-- R304: if either vector read faults, RESET returns MemoryFault with the faulting address and PC is unchanged; no request
follows the faulting one. -/
def Obligations.ResetVectorFault : Prop :=
  ∀ (s : State) (rest : List Command), s.commands = .reset :: rest →
    (s.readAnswer 0xFFFC = .fault →
      ∃ t, step s = .next t ∧ sameFields s t ∧ t.mem = s.mem ∧ t.log = s.log ++ [.read 0xFFFC .fault] ∧
        t.response = some (.reset (.memoryFault 0xFFFC .read))) ∧
    (∀ lo, s.readAnswer 0xFFFC = .value lo → (s.record (.read 0xFFFC (.value lo))).readAnswer 0xFFFD = .fault →
      ∃ t, step s = .next t ∧ sameFields s t ∧ t.mem = s.mem ∧
        t.log = s.log ++ [.read 0xFFFC (.value lo), .read 0xFFFD .fault] ∧
        t.response = some (.reset (.memoryFault 0xFFFD .read)))

/-- R307: the violation list is empty when the Always flag is 1 and exactly [AlwaysFlagClear] when it is 0: no register or
PC is ever out of range, and no other flag is checked. -/
def Obligations.ValidateOnlyAlways : Prop :=
  ∀ (s : State), validateState s = if s.p.getLsbD 5 then [] else [.alwaysFlagClear]

/-- R308: VALIDATE answers the violation list and changes none of the six fields, memory or requests. -/
def Obligations.ValidateAnswers : Prop :=
  ∀ (s : State) (rest : List Command), s.commands = .validate :: rest →
    ∃ t, step s = .next t ∧ t.response = some (.violations (validateState s)) ∧ sameFields s t ∧ t.mem = s.mem ∧
      t.log = s.log

/-- R280: SNAPSHOT_LOAD writes the six fields verbatim, with no validation, request or response. -/
def Obligations.SnapshotLoadVerbatim : Prop :=
  ∀ (s : State) (r : Snapshot) (rest : List Command), s.commands = .snapshotLoad r :: rest →
    ∃ t, step s = .next t ∧ t.a = r.a ∧ t.x = r.x ∧ t.y = r.y ∧ t.sp = r.sp ∧ t.p = r.p ∧ t.pc = r.pc ∧ t.mem = s.mem ∧
      t.log = s.log ∧ t.response = none

/-- R281: SNAPSHOT_READ returns the six fields, changes nothing and makes no request, and a SNAPSHOT_LOAD of what it
returned, in any later state, gives back all six. -/
def Obligations.SnapshotRoundTrip : Prop :=
  ∀ (s u : State) (rest rest' : List Command), s.commands = .snapshotRead :: rest →
    ∃ t r, step s = .next t ∧ t.response = some (.snapshot r) ∧ sameFields s t ∧ t.mem = s.mem ∧ t.log = s.log ∧
      (u.commands = .snapshotLoad r :: rest' → ∃ w, step u = .next w ∧ sameFields s w)

/-! ## The assembler -/

/-- R102: a branch written with its target is assembled to its opcode and the offset byte (target - (op + 1)) mod 256
exactly when that difference lies in [-128, 127], and the branch taken then lands on the target; written with a raw offset
d, to d mod 256 exactly when d lies there. Else the line is rejected. -/
def Obligations.AssembledBranchReachesTarget : Prop :=
  ∀ (mnemonic : List Char) (opcode : Byte) (op : Addr),
    (mnemonic, opcode) ∈ [(['B', 'P', 'L'], (0x10 : Byte)), (['B', 'M', 'I'], 0x30), (['B', 'V', 'C'], 0x50),
                          (['B', 'V', 'S'], 0x70), (['B', 'C', 'C'], 0x90), (['B', 'C', 'S'], 0xB0),
                          (['B', 'N', 'E'], 0xD0), (['B', 'E', 'Q'], 0xF0)] →
    (∀ target : Addr,
      let difference := (target - (op + 1)).toInt
      (-128 ≤ difference ∧ difference ≤ 127 →
        (assemble op mnemonic (.fourDigits target)).map encode = some [opcode, BitVec.ofInt 8 difference] ∧
          takenTarget op (sext16 (BitVec.ofInt 8 difference)) = target) ∧
      (¬(-128 ≤ difference ∧ difference ≤ 127) → assemble op mnemonic (.fourDigits target) = none)) ∧
    (∀ d : Int,
      (-128 ≤ d ∧ d ≤ 127 →
        (assemble op mnemonic (.rawOffset d)).map encode = some [opcode, BitVec.ofInt 8 d]) ∧
      (¬(-128 ≤ d ∧ d ≤ 127) → assemble op mnemonic (.rawOffset d) = none))

/-- R98, R101-R103: which instruction each mnemonic and operand form gives, every other pair being rejected: `#$hh` is
immediate and of loads only, two hex digits are zero-page, four absolute whatever the address (a branch's target), a flag
op has no operand. And whatever is accepted, as tokens or as a line, is an instruction whose bytes the decoder reads back. -/
def Obligations.AssembledDecodes : Prop :=
  (∀ (op : Addr) (mnemonic : List Char) (operand : AsmOperand) (i : Instr),
    assemble op mnemonic operand = some i ↔
      (∃ v, operand = .immediate v ∧
        (mnemonic, i) ∈ [(['L', 'D', 'A'], .ldaImm v), (['L', 'D', 'X'], .ldxImm v), (['L', 'D', 'Y'], .ldyImm v)]) ∨
      (∃ z, operand = .twoDigits z ∧
        (mnemonic, i) ∈ [(['L', 'D', 'A'], .ldaZp (zext16 z)), (['L', 'D', 'X'], .ldxZp (zext16 z)),
                         (['L', 'D', 'Y'], .ldyZp (zext16 z)), (['S', 'T', 'A'], .staZp (zext16 z)),
                         (['S', 'T', 'X'], .stxZp (zext16 z)), (['S', 'T', 'Y'], .styZp (zext16 z))]) ∨
      (∃ ea, operand = .fourDigits ea ∧
        (mnemonic, i) ∈ [(['L', 'D', 'A'], .ldaAbs ea), (['L', 'D', 'X'], .ldxAbs ea), (['L', 'D', 'Y'], .ldyAbs ea),
                         (['S', 'T', 'A'], .staAbs ea), (['S', 'T', 'X'], .stxAbs ea), (['S', 'T', 'Y'], .styAbs ea)]) ∨
      (∃ off : Addr, -128 ≤ off.toInt ∧ off.toInt ≤ 127 ∧
        (operand = .fourDigits (op + 1 + off) ∨ operand = .rawOffset off.toInt) ∧
        (mnemonic, i) ∈ [(['B', 'P', 'L'], .bpl off), (['B', 'M', 'I'], .bmi off), (['B', 'V', 'C'], .bvc off),
                         (['B', 'V', 'S'], .bvs off), (['B', 'C', 'C'], .bcc off), (['B', 'C', 'S'], .bcs off),
                         (['B', 'N', 'E'], .bne off), (['B', 'E', 'Q'], .beq off)]) ∨
      (operand = .none ∧
        (mnemonic, i) ∈ [(['C', 'L', 'C'], .clc), (['S', 'E', 'C'], .sec), (['C', 'L', 'I'], .cli), (['S', 'E', 'I'], .sei),
                         (['C', 'L', 'V'], .clv), (['C', 'L', 'D'], .cld), (['S', 'E', 'D'], .sed)])) ∧
  (∀ (op : Addr) (mnemonic : List Char) (operand : AsmOperand) (i : Instr),
    assemble op mnemonic operand = some i → decode (encode i) = .instr i []) ∧
  (∀ (op : Addr) (line : List Char) (i : Instr), assembleLine op line = some i → decode (encode i) = .instr i [])

/-- R101, R102: the lines that are accepted are exactly a mnemonic alone, or a mnemonic, a space and the operand written
`#$hh`, `$hh`, `$hhhh`, `*d` or `*-d`, where the mnemonic takes that operand; every other line is rejected. (The one space,
the capital mnemonics and either case of hex digits are the model's choice: log entry 13.) -/
def Obligations.AssemblerLineForms : Prop :=
  ∀ (op : Addr) (line : List Char) (i : Instr),
    assembleLine op line = some i ↔
      assemble op line .none = some i ∨
      ∃ mnemonic text operand,
        line = mnemonic ++ ' ' :: text ∧ OperandText text operand ∧ assemble op mnemonic operand = some i

/-! ## Runs -/

/-- R211, R315: the run from a taken branch with offset byte 0xFF, of any of the eight, in plain memory, with nothing but
STEPs to come, is a hang in which every command is answered and PC stays at the branch. -/
def Obligations.SelfBranchHangs : Prop :=
  ∀ (s : State) (op : Byte) (f : Flag) (expected : Bool),
    (op, f, expected) ∈ [((0x10 : Byte), Flag.n, false), (0x30, Flag.n, true), (0x50, Flag.v, false),
                         (0x70, Flag.v, true), (0x90, Flag.c, false), (0xB0, Flag.c, true), (0xD0, Flag.z, false),
                         (0xF0, Flag.z, true)] →
    (∀ c ∈ s.commands, c = .step) → getFlag s.p .always = true → s.holds s.pc [op, 0xFF] → getFlag s.p f = expected →
    s.hangs ∧ ∀ n, ((Run.start s).after n).stuck = false ∧ ((Run.start s).after n).state.pc = s.pc
end

