-- ==== Sys2Proof/Laws/Decode.lean ====
section
/-! SUPPORT. The byte helpers of the decoder and encoder: taking apart and putting together again (00_scope R15). -/

namespace Sys2Proof

theorem hiLo_toNat (hi lo : Byte) : (hiLo hi lo).toNat = 256 * hi.toNat + lo.toNat := by
  simp only [hiLo, BitVec.toNat_append]
  rw [← Nat.shiftLeft_add_eq_or_of_lt lo.isLt, Nat.shiftLeft_eq]
  omega

theorem loByte_toNat (a : Addr) : (loByte a).toNat = a.toNat % 256 := by simp [loByte]

theorem hiByte_toNat (a : Addr) : (hiByte a).toNat = a.toNat / 256 := by
  have := a.isLt
  simp only [hiByte, BitVec.extractLsb'_toNat, Nat.shiftRight_eq_div_pow]
  omega

@[simp] theorem loByte_hiLo (hi lo : Byte) : loByte (hiLo hi lo) = lo := by
  have := lo.isLt
  apply BitVec.eq_of_toNat_eq
  rw [loByte_toNat, hiLo_toNat]
  omega

@[simp] theorem hiByte_hiLo (hi lo : Byte) : hiByte (hiLo hi lo) = hi := by
  have := lo.isLt
  apply BitVec.eq_of_toNat_eq
  rw [hiByte_toNat, hiLo_toNat]
  omega

@[simp] theorem hiLo_hiByte_loByte (a : Addr) : hiLo (hiByte a) (loByte a) = a := by
  apply BitVec.eq_of_toNat_eq
  rw [hiLo_toNat, hiByte_toNat, loByte_toNat]
  omega

@[simp] theorem loByte_zext16 (b : Byte) : loByte (zext16 b) = b := by revert b; decide

@[simp] theorem inZeroPage_zext16 (b : Byte) : inZeroPage (zext16 b) = true := by revert b; decide

@[simp] theorem loByte_sext16 (b : Byte) : loByte (sext16 b) = b := by revert b; decide

@[simp] theorem isOffset_sext16 (b : Byte) : isOffset (sext16 b) = true := by revert b; decide

/-- An address of page 0 is its low byte, zero-extended. -/
theorem zext16_loByte {ea : Addr} (h : inZeroPage ea = true) : zext16 (loByte ea) = ea := by
  simp only [inZeroPage, decide_eq_true_eq] at h
  apply BitVec.eq_of_toNat_eq
  rw [zext16, BitVec.toNat_setWidth, loByte_toNat]
  omega

/-- An offset in [-128, 127] is its low byte, sign-extended. -/
theorem sext16_loByte {off : Addr} (h : isOffset off = true) : sext16 (loByte off) = off := by
  simp only [isOffset, Bool.and_eq_true, decide_eq_true_eq] at h
  obtain ⟨h1, h2⟩ := h
  have hlt := off.isLt
  apply BitVec.eq_of_toInt_eq
  rw [sext16, BitVec.toInt_signExtend_of_le (by decide)]
  rw [BitVec.toInt_eq_toNat_cond] at h1 h2 ⊢
  rw [BitVec.toInt_eq_toNat_cond, loByte_toNat]
  by_cases hc : 2 * (off.toNat % 256) < 2 ^ 8 <;> by_cases hd : 2 * off.toNat < 2 ^ 16 <;>
    simp only [hc, hd, if_true, if_false] at h1 h2 ⊢ <;> omega

end Sys2Proof
end

