-- ==== Sys2Proof/Laws/Assembler.lean ====
section
/-! SUPPORT. The assembler's shared operations: a branch's operand, and what a character is worth as a digit. -/

namespace Sys2Proof.Machine

theorem isOffset_iff (x : Addr) : isOffset x = true ↔ -128 ≤ x.toInt ∧ x.toInt ≤ 127 := by simp [isOffset]

/-- The byte of a 16-bit number is the number mod 256. -/
theorem loByte_eq_ofInt (a : Addr) : loByte a = BitVec.ofInt 8 a.toInt := by
  apply BitVec.eq_of_toNat_eq
  rw [loByte_toNat, BitVec.toNat_ofInt, BitVec.toInt_eq_toNat_cond]
  split <;> omega

/-- A branch's operand is accepted exactly as a target or a raw offset within reach. -/
theorem branchOperand_eq_some (op : Addr) (make : Addr → Instr) (o : AsmOperand) (i : Instr) :
    branchOperand op make o = some i ↔ ∃ off : Addr, -128 ≤ off.toInt ∧ off.toInt ≤ 127 ∧
      (o = .fourDigits (op + 1 + off) ∨ o = .rawOffset off.toInt) ∧ i = make off := by
  cases o with
  | fourDigits a =>
    simp only [branchOperand, offsetTo]
    constructor
    · intro h
      split at h
      · rename_i hh
        rw [isOffset_iff] at hh
        exact ⟨_, hh.1, hh.2, .inl (by congr 1; ring), (Option.some.inj h).symm⟩
      · exact absurd h (by simp)
    · rintro ⟨off, h1, h2, h | h, rfl⟩
      · cases h
        rw [show op + 1 + off - (op + 1) = off by ring, if_pos ((isOffset_iff _).2 ⟨h1, h2⟩)]
        rfl
      · cases h
  | rawOffset d =>
    simp only [branchOperand, rawOffset]
    constructor
    · intro h
      split at h
      · rename_i hh
        have hd : (BitVec.ofInt 16 d).toInt = d := by
          rw [BitVec.toInt_ofInt]
          simp only [Int.bmod]
          split <;> omega
        exact ⟨BitVec.ofInt 16 d, by rw [hd]; exact hh.1, by rw [hd]; exact hh.2, .inr (by rw [hd]),
          (Option.some.inj h).symm⟩
      · exact absurd h (by simp)
    · rintro ⟨off, h1, h2, h | h, rfl⟩
      · cases h
      · cases h; simp [h1, h2]
  | none | immediate | twoDigits => simp [branchOperand]

/-- The table of digit characters says what `DigitOf` says, in every base up to 16. -/
theorem digitValue_eq_some (base : Nat) (c : Char) (v : Nat) : digitValue base c = some v ↔ DigitOf base c v := by
  have e0 : '0'.toNat = 48 := rfl
  have eA : 'A'.toNat = 65 := rfl
  have ea : 'a'.toNat = 97 := rfl
  simp only [digitValue, digitRuns, DigitOf, List.findSome?_cons, List.findSome?_nil, e0, eA, ea]
  generalize c.toNat = n
  by_cases h0 : 48 ≤ n ∧ n - 48 < 10
  · simp [h0]; omega
  · by_cases hA : 65 ≤ n ∧ n - 65 < 6
    · simp [h0, hA]; omega
    · by_cases ha : 97 ≤ n ∧ n - 97 < 6
      · simp [h0, hA, ha]; omega
      · simp [h0, hA, ha]; omega

end Sys2Proof.Machine
end

