-- ==== Sys2Proof/Laws/Flags.lean ====
section
/-! SUPPORT. Reading a flag after writing one. -/

namespace Sys2Proof.Machine

/-- No two flags are the same bit of P. -/
theorem flagBit_injective {f g : Flag} (h : flagBit f = flagBit g) : f = g := by
  cases f <;> cases g <;> first | rfl | exact absurd h (by decide)

/-- Bit i of 1 shifted left by j, for two bit numbers of a byte. -/
theorem getLsbD_oneShifted (j k : Fin 8) : (1#8 <<< j.val).getLsbD k.val = decide (k = j) := by
  revert j k; decide

/-- A bit read after a bit was written is the value written if it is that bit, and as before if not. -/
theorem getFlag_setFlag (p : Byte) (f g : Flag) (b : Bool) :
    getFlag (setFlag p f b) g = if g = f then b else getFlag p g := by
  have hbit : decide (flagBit g = flagBit f) = decide (g = f) := by
    by_cases h : g = f
    · simp [h]
    · simp [h, mt flagBit_injective h]
  have hlt : (flagBit g).val < 8 := (flagBit g).isLt
  have hone := getLsbD_oneShifted (flagBit f) (flagBit g)
  rw [hbit] at hone
  unfold getFlag setFlag getBit setBit
  cases b
  · simp only [Bool.false_eq_true, if_false, BitVec.getLsbD_and, BitVec.getLsbD_not, hone, hlt]
    by_cases h : g = f <;> simp [h]
  · simp only [if_true, BitVec.getLsbD_or, hone]
    by_cases h : g = f <;> simp [h]

@[simp] theorem getFlag_setFlag_same (p : Byte) (f : Flag) (b : Bool) : getFlag (setFlag p f b) f = b := by
  rw [getFlag_setFlag, if_pos rfl]

theorem getFlag_setFlag_ne {f g : Flag} (h : g ≠ f) (p : Byte) (b : Bool) :
    getFlag (setFlag p f b) g = getFlag p g := by
  rw [getFlag_setFlag, if_neg h]

/-- N after the N/Z generator is bit 7 of the value. -/
@[simp] theorem getFlag_nz_n (v p : Byte) : getFlag (nz v p) .n = v.getLsbD 7 := by
  rw [nz, getFlag_setFlag_ne (by decide), getFlag_setFlag_same]

/-- Z after the N/Z generator says whether the value is 0. -/
@[simp] theorem getFlag_nz_z (v p : Byte) : getFlag (nz v p) .z = (v == 0) := getFlag_setFlag_same _ _ _

/-- The N/Z generator leaves every other flag as it was. -/
theorem getFlag_nz_ne {g : Flag} (hn : g ≠ .n) (hz : g ≠ .z) (v p : Byte) : getFlag (nz v p) g = getFlag p g := by
  rw [nz, getFlag_setFlag_ne hz, getFlag_setFlag_ne hn]

end Sys2Proof.Machine
end

