-- ==== Sys2Proof/Laws/State.lean ====
section
/-! SUPPORT. One lemma per field per update of the state, so that no later proof unfolds a record update. -/

namespace Sys2Proof.Machine

variable (s : State)

/-! ## State.setP -/

@[simp] theorem State.setP_a (v : Byte) : (s.setP v).a = s.a := rfl
@[simp] theorem State.setP_x (v : Byte) : (s.setP v).x = s.x := rfl
@[simp] theorem State.setP_y (v : Byte) : (s.setP v).y = s.y := rfl
@[simp] theorem State.setP_sp (v : Byte) : (s.setP v).sp = s.sp := rfl
@[simp] theorem State.setP_p (v : Byte) : (s.setP v).p = v := rfl
@[simp] theorem State.setP_pc (v : Byte) : (s.setP v).pc = s.pc := rfl
@[simp] theorem State.setP_mem (v : Byte) : (s.setP v).mem = s.mem := rfl
@[simp] theorem State.setP_regions (v : Byte) : (s.setP v).regions = s.regions := rfl
@[simp] theorem State.setP_log (v : Byte) : (s.setP v).log = s.log := rfl
@[simp] theorem State.setP_commands (v : Byte) : (s.setP v).commands = s.commands := rfl
@[simp] theorem State.setP_trace (v : Byte) : (s.setP v).trace = s.trace := rfl
@[simp] theorem State.setP_response (v : Byte) : (s.setP v).response = s.response := rfl

/-! ## State.setPc -/

@[simp] theorem State.setPc_a (v : Addr) : (s.setPc v).a = s.a := rfl
@[simp] theorem State.setPc_x (v : Addr) : (s.setPc v).x = s.x := rfl
@[simp] theorem State.setPc_y (v : Addr) : (s.setPc v).y = s.y := rfl
@[simp] theorem State.setPc_sp (v : Addr) : (s.setPc v).sp = s.sp := rfl
@[simp] theorem State.setPc_p (v : Addr) : (s.setPc v).p = s.p := rfl
@[simp] theorem State.setPc_pc (v : Addr) : (s.setPc v).pc = v := rfl
@[simp] theorem State.setPc_mem (v : Addr) : (s.setPc v).mem = s.mem := rfl
@[simp] theorem State.setPc_regions (v : Addr) : (s.setPc v).regions = s.regions := rfl
@[simp] theorem State.setPc_log (v : Addr) : (s.setPc v).log = s.log := rfl
@[simp] theorem State.setPc_commands (v : Addr) : (s.setPc v).commands = s.commands := rfl
@[simp] theorem State.setPc_trace (v : Addr) : (s.setPc v).trace = s.trace := rfl
@[simp] theorem State.setPc_response (v : Addr) : (s.setPc v).response = s.response := rfl

/-! ## State.setMem -/

@[simp] theorem State.setMem_a (m : Memory) : (s.setMem m).a = s.a := rfl
@[simp] theorem State.setMem_x (m : Memory) : (s.setMem m).x = s.x := rfl
@[simp] theorem State.setMem_y (m : Memory) : (s.setMem m).y = s.y := rfl
@[simp] theorem State.setMem_sp (m : Memory) : (s.setMem m).sp = s.sp := rfl
@[simp] theorem State.setMem_p (m : Memory) : (s.setMem m).p = s.p := rfl
@[simp] theorem State.setMem_pc (m : Memory) : (s.setMem m).pc = s.pc := rfl
@[simp] theorem State.setMem_mem (m : Memory) : (s.setMem m).mem = m := rfl
@[simp] theorem State.setMem_regions (m : Memory) : (s.setMem m).regions = s.regions := rfl
@[simp] theorem State.setMem_log (m : Memory) : (s.setMem m).log = s.log := rfl
@[simp] theorem State.setMem_commands (m : Memory) : (s.setMem m).commands = s.commands := rfl
@[simp] theorem State.setMem_trace (m : Memory) : (s.setMem m).trace = s.trace := rfl
@[simp] theorem State.setMem_response (m : Memory) : (s.setMem m).response = s.response := rfl

/-! ## State.record -/

@[simp] theorem State.record_a (t : Transaction) : (s.record t).a = s.a := rfl
@[simp] theorem State.record_x (t : Transaction) : (s.record t).x = s.x := rfl
@[simp] theorem State.record_y (t : Transaction) : (s.record t).y = s.y := rfl
@[simp] theorem State.record_sp (t : Transaction) : (s.record t).sp = s.sp := rfl
@[simp] theorem State.record_p (t : Transaction) : (s.record t).p = s.p := rfl
@[simp] theorem State.record_pc (t : Transaction) : (s.record t).pc = s.pc := rfl
@[simp] theorem State.record_mem (t : Transaction) : (s.record t).mem = s.mem := rfl
@[simp] theorem State.record_regions (t : Transaction) : (s.record t).regions = s.regions := rfl
@[simp] theorem State.record_log (t : Transaction) : (s.record t).log = s.log ++ [t] := rfl
@[simp] theorem State.record_commands (t : Transaction) : (s.record t).commands = s.commands := rfl
@[simp] theorem State.record_trace (t : Transaction) : (s.record t).trace = s.trace := rfl
@[simp] theorem State.record_response (t : Transaction) : (s.record t).response = s.response := rfl

/-! ## State.respond -/

@[simp] theorem State.respond_a (r : Option Response) : (s.respond r).a = s.a := rfl
@[simp] theorem State.respond_x (r : Option Response) : (s.respond r).x = s.x := rfl
@[simp] theorem State.respond_y (r : Option Response) : (s.respond r).y = s.y := rfl
@[simp] theorem State.respond_sp (r : Option Response) : (s.respond r).sp = s.sp := rfl
@[simp] theorem State.respond_p (r : Option Response) : (s.respond r).p = s.p := rfl
@[simp] theorem State.respond_pc (r : Option Response) : (s.respond r).pc = s.pc := rfl
@[simp] theorem State.respond_mem (r : Option Response) : (s.respond r).mem = s.mem := rfl
@[simp] theorem State.respond_regions (r : Option Response) : (s.respond r).regions = s.regions := rfl
@[simp] theorem State.respond_log (r : Option Response) : (s.respond r).log = s.log := rfl
@[simp] theorem State.respond_commands (r : Option Response) : (s.respond r).commands = s.commands := rfl
@[simp] theorem State.respond_trace (r : Option Response) : (s.respond r).trace = s.trace := rfl
@[simp] theorem State.respond_response (r : Option Response) : (s.respond r).response = r := rfl

/-! ## State.emit -/

@[simp] theorem State.emit_a (t : Option TraceRecord) : (s.emit t).a = s.a := rfl
@[simp] theorem State.emit_x (t : Option TraceRecord) : (s.emit t).x = s.x := rfl
@[simp] theorem State.emit_y (t : Option TraceRecord) : (s.emit t).y = s.y := rfl
@[simp] theorem State.emit_sp (t : Option TraceRecord) : (s.emit t).sp = s.sp := rfl
@[simp] theorem State.emit_p (t : Option TraceRecord) : (s.emit t).p = s.p := rfl
@[simp] theorem State.emit_pc (t : Option TraceRecord) : (s.emit t).pc = s.pc := rfl
@[simp] theorem State.emit_mem (t : Option TraceRecord) : (s.emit t).mem = s.mem := rfl
@[simp] theorem State.emit_regions (t : Option TraceRecord) : (s.emit t).regions = s.regions := rfl
@[simp] theorem State.emit_log (t : Option TraceRecord) : (s.emit t).log = s.log := rfl
@[simp] theorem State.emit_commands (t : Option TraceRecord) : (s.emit t).commands = s.commands := rfl
@[simp] theorem State.emit_trace (t : Option TraceRecord) : (s.emit t).trace = t := rfl
@[simp] theorem State.emit_response (t : Option TraceRecord) : (s.emit t).response = s.response := rfl

/-! ## State.load -/

@[simp] theorem State.load_a (r : Snapshot) : (s.load r).a = r.a := rfl
@[simp] theorem State.load_x (r : Snapshot) : (s.load r).x = r.x := rfl
@[simp] theorem State.load_y (r : Snapshot) : (s.load r).y = r.y := rfl
@[simp] theorem State.load_sp (r : Snapshot) : (s.load r).sp = r.sp := rfl
@[simp] theorem State.load_p (r : Snapshot) : (s.load r).p = r.p := rfl
@[simp] theorem State.load_pc (r : Snapshot) : (s.load r).pc = r.pc := rfl
@[simp] theorem State.load_mem (r : Snapshot) : (s.load r).mem = s.mem := rfl
@[simp] theorem State.load_regions (r : Snapshot) : (s.load r).regions = s.regions := rfl
@[simp] theorem State.load_log (r : Snapshot) : (s.load r).log = s.log := rfl
@[simp] theorem State.load_commands (r : Snapshot) : (s.load r).commands = s.commands := rfl
@[simp] theorem State.load_trace (r : Snapshot) : (s.load r).trace = s.trace := rfl
@[simp] theorem State.load_response (r : Snapshot) : (s.load r).response = s.response := rfl

/-! ## State.setReg -/

@[simp] theorem State.setReg_sp (r : Reg) (v : Byte) : (s.setReg r v).sp = s.sp := by cases r <;> rfl
@[simp] theorem State.setReg_p (r : Reg) (v : Byte) : (s.setReg r v).p = s.p := by cases r <;> rfl
@[simp] theorem State.setReg_pc (r : Reg) (v : Byte) : (s.setReg r v).pc = s.pc := by cases r <;> rfl
@[simp] theorem State.setReg_mem (r : Reg) (v : Byte) : (s.setReg r v).mem = s.mem := by cases r <;> rfl
@[simp] theorem State.setReg_regions (r : Reg) (v : Byte) : (s.setReg r v).regions = s.regions := by cases r <;> rfl
@[simp] theorem State.setReg_log (r : Reg) (v : Byte) : (s.setReg r v).log = s.log := by cases r <;> rfl
@[simp] theorem State.setReg_commands (r : Reg) (v : Byte) : (s.setReg r v).commands = s.commands := by cases r <;> rfl
@[simp] theorem State.setReg_trace (r : Reg) (v : Byte) : (s.setReg r v).trace = s.trace := by cases r <;> rfl
@[simp] theorem State.setReg_response (r : Reg) (v : Byte) : (s.setReg r v).response = s.response := by cases r <;> rfl
@[simp] theorem State.setReg_a_a (v : Byte) : (s.setReg .a v).a = v := rfl
@[simp] theorem State.setReg_a_x (v : Byte) : (s.setReg .a v).x = s.x := rfl
@[simp] theorem State.setReg_a_y (v : Byte) : (s.setReg .a v).y = s.y := rfl
@[simp] theorem State.setReg_x_a (v : Byte) : (s.setReg .x v).a = s.a := rfl
@[simp] theorem State.setReg_x_x (v : Byte) : (s.setReg .x v).x = v := rfl
@[simp] theorem State.setReg_x_y (v : Byte) : (s.setReg .x v).y = s.y := rfl
@[simp] theorem State.setReg_y_a (v : Byte) : (s.setReg .y v).a = s.a := rfl
@[simp] theorem State.setReg_y_x (v : Byte) : (s.setReg .y v).x = s.x := rfl
@[simp] theorem State.setReg_y_y (v : Byte) : (s.setReg .y v).y = v := rfl

/-! ## Reading a register by name -/

@[simp] theorem State.reg_a : s.reg .a = s.a := rfl
@[simp] theorem State.reg_x : s.reg .x = s.x := rfl
@[simp] theorem State.reg_y : s.reg .y = s.y := rfl

/-- A register read after a register write is the value written if it is that register, and as before if not. -/
theorem State.reg_setReg (r q : Reg) (v : Byte) : (s.setReg r v).reg q = if q = r then v else s.reg q := by
  cases r <;> cases q <;> rfl

@[simp] theorem State.reg_setReg_same (r : Reg) (v : Byte) : (s.setReg r v).reg r = v := by
  rw [State.reg_setReg, if_pos rfl]

theorem State.reg_setReg_ne {s : State} {r q : Reg} (h : q ≠ r) (v : Byte) : (s.setReg r v).reg q = s.reg q := by
  rw [State.reg_setReg, if_neg h]

@[simp] theorem State.reg_setP (q : Reg) (v : Byte) : (s.setP v).reg q = s.reg q := by cases q <;> rfl
@[simp] theorem State.reg_setPc (q : Reg) (v : Addr) : (s.setPc v).reg q = s.reg q := by cases q <;> rfl
@[simp] theorem State.reg_setMem (q : Reg) (m : Memory) : (s.setMem m).reg q = s.reg q := by cases q <;> rfl
@[simp] theorem State.reg_record (q : Reg) (t : Transaction) : (s.record t).reg q = s.reg q := by cases q <;> rfl
@[simp] theorem State.reg_respond (q : Reg) (r : Option Response) : (s.respond r).reg q = s.reg q := by cases q <;> rfl
@[simp] theorem State.reg_emit (q : Reg) (t : Option TraceRecord) : (s.emit t).reg q = s.reg q := by cases q <;> rfl

/-! ## What depends on one field only -/

/-- The byte an address holds depends on the listed bytes only. -/
theorem State.byteAt_congr {s t : State} (h : t.mem = s.mem) (a : Addr) : t.byteAt a = s.byteAt a := by
  rw [State.byteAt, State.byteAt, h]

/-- What stands at an address depends on the memory map only. -/
theorem State.kindAt_congr {s t : State} (h : t.regions = s.regions) (a : Addr) : t.kindAt a = s.kindAt a := by
  rw [State.kindAt, State.kindAt, h]

@[simp] theorem State.kindAt_setP (q : Addr) (v : Byte) : (s.setP v).kindAt q = s.kindAt q := rfl
@[simp] theorem State.byteAt_setP (q : Addr) (v : Byte) : (s.setP v).byteAt q = s.byteAt q := rfl
@[simp] theorem State.kindAt_setPc (q : Addr) (v : Addr) : (s.setPc v).kindAt q = s.kindAt q := rfl
@[simp] theorem State.byteAt_setPc (q : Addr) (v : Addr) : (s.setPc v).byteAt q = s.byteAt q := rfl
@[simp] theorem State.kindAt_setMem (q : Addr) (m : Memory) : (s.setMem m).kindAt q = s.kindAt q := rfl
@[simp] theorem State.kindAt_record (q : Addr) (t : Transaction) : (s.record t).kindAt q = s.kindAt q := rfl
@[simp] theorem State.byteAt_record (q : Addr) (t : Transaction) : (s.record t).byteAt q = s.byteAt q := rfl
@[simp] theorem State.kindAt_respond (q : Addr) (r : Option Response) : (s.respond r).kindAt q = s.kindAt q := rfl
@[simp] theorem State.byteAt_respond (q : Addr) (r : Option Response) : (s.respond r).byteAt q = s.byteAt q := rfl
@[simp] theorem State.kindAt_emit (q : Addr) (t : Option TraceRecord) : (s.emit t).kindAt q = s.kindAt q := rfl
@[simp] theorem State.byteAt_emit (q : Addr) (t : Option TraceRecord) : (s.emit t).byteAt q = s.byteAt q := rfl
@[simp] theorem State.kindAt_load (q : Addr) (r : Snapshot) : (s.load r).kindAt q = s.kindAt q := rfl
@[simp] theorem State.byteAt_load (q : Addr) (r : Snapshot) : (s.load r).byteAt q = s.byteAt q := rfl
@[simp] theorem State.kindAt_setReg (q : Addr) (r : Reg) (v : Byte) : (s.setReg r v).kindAt q = s.kindAt q :=
  State.kindAt_congr (by simp) q
@[simp] theorem State.byteAt_setReg (q : Addr) (r : Reg) (v : Byte) : (s.setReg r v).byteAt q = s.byteAt q :=
  State.byteAt_congr (by simp) q

/-! ## The end of a step -/

@[simp] theorem raise_a (o : StepOutcome) : (raise o s).a = s.a := rfl
@[simp] theorem raise_x (o : StepOutcome) : (raise o s).x = s.x := rfl
@[simp] theorem raise_y (o : StepOutcome) : (raise o s).y = s.y := rfl
@[simp] theorem raise_sp (o : StepOutcome) : (raise o s).sp = s.sp := rfl
@[simp] theorem raise_p (o : StepOutcome) : (raise o s).p = s.p := rfl
@[simp] theorem raise_pc (o : StepOutcome) : (raise o s).pc = s.pc := rfl
@[simp] theorem raise_mem (o : StepOutcome) : (raise o s).mem = s.mem := rfl
@[simp] theorem raise_regions (o : StepOutcome) : (raise o s).regions = s.regions := rfl
@[simp] theorem raise_log (o : StepOutcome) : (raise o s).log = s.log := rfl
@[simp] theorem raise_commands (o : StepOutcome) : (raise o s).commands = s.commands := rfl
@[simp] theorem raise_trace (o : StepOutcome) : (raise o s).trace = s.trace := rfl
@[simp] theorem raise_response (o : StepOutcome) : (raise o s).response = some (.step o) := rfl
@[simp] theorem raiseMemoryFault_a (a : Addr) (k : AccessKind) : (raiseMemoryFault a k s).a = s.a := rfl
@[simp] theorem raiseMemoryFault_x (a : Addr) (k : AccessKind) : (raiseMemoryFault a k s).x = s.x := rfl
@[simp] theorem raiseMemoryFault_y (a : Addr) (k : AccessKind) : (raiseMemoryFault a k s).y = s.y := rfl
@[simp] theorem raiseMemoryFault_sp (a : Addr) (k : AccessKind) : (raiseMemoryFault a k s).sp = s.sp := rfl
@[simp] theorem raiseMemoryFault_p (a : Addr) (k : AccessKind) : (raiseMemoryFault a k s).p = s.p := rfl
@[simp] theorem raiseMemoryFault_pc (a : Addr) (k : AccessKind) : (raiseMemoryFault a k s).pc = Config.pcAfterFault s.log := rfl
@[simp] theorem raiseMemoryFault_mem (a : Addr) (k : AccessKind) : (raiseMemoryFault a k s).mem = s.mem := rfl
@[simp] theorem raiseMemoryFault_regions (a : Addr) (k : AccessKind) : (raiseMemoryFault a k s).regions = s.regions := rfl
@[simp] theorem raiseMemoryFault_log (a : Addr) (k : AccessKind) : (raiseMemoryFault a k s).log = s.log := rfl
@[simp] theorem raiseMemoryFault_commands (a : Addr) (k : AccessKind) : (raiseMemoryFault a k s).commands = s.commands := rfl
@[simp] theorem raiseMemoryFault_trace (a : Addr) (k : AccessKind) : (raiseMemoryFault a k s).trace = s.trace := rfl
@[simp] theorem raiseMemoryFault_response (a : Addr) (k : AccessKind) : (raiseMemoryFault a k s).response = some (.step (.memoryFault a k)) := rfl
@[simp] theorem reg_raise (q : Reg) (o : StepOutcome) : (raise o s).reg q = s.reg q := by cases q <;> rfl
@[simp] theorem kindAt_raise (q : Addr) (o : StepOutcome) : (raise o s).kindAt q = s.kindAt q := rfl
@[simp] theorem byteAt_raise (q : Addr) (o : StepOutcome) : (raise o s).byteAt q = s.byteAt q := rfl

end Sys2Proof.Machine
end

