-- ==== Sys2Proof/Laws/Memory.lean ====
section
/-! SUPPORT. Memory: a read after a write, and that every operation keeps the canonical form. -/

namespace Sys2Proof.Machine

/-! ## The list of cells -/

/-- A byte looked up after a write is the byte written at that address, and as before elsewhere. -/
theorem Memory.lookup_write (m : Memory) (a b : Nat) (v : Byte) :
    (Memory.write m a v).lookup b = if b = a then some v else m.lookup b := by
  induction m with
  | nil => simp only [Memory.write, Memory.lookup, eq_comm]
  | cons c m ih =>
    obtain ⟨k, w⟩ := c
    by_cases hlt : a < k
    · simp only [Memory.write, if_pos hlt, Memory.lookup, eq_comm]
    · by_cases heq : a = k
      · subst heq
        simp only [Memory.write, if_neg hlt, if_true, Memory.lookup]
        by_cases h : b = a
        · simp [h]
        · rw [if_neg (Ne.symm h), if_neg (Ne.symm h), if_neg h]
      · simp only [Memory.write, if_neg hlt, if_neg heq, Memory.lookup, ih]
        by_cases h : b = a
        · subst h; simp [Ne.symm heq]
        · simp [h]

/-- The addresses listed after a write are those before and the one written. -/
theorem Memory.mem_write {m : Memory} {a : Nat} {v : Byte} {c : Host.Cell} (h : c ∈ Memory.write m a v) :
    c = (a, v) ∨ c ∈ m := by
  induction m with
  | nil => simpa [Memory.write] using h
  | cons d m ih =>
    obtain ⟨k, w⟩ := d
    simp only [Memory.write] at h
    split at h
    · simpa using h
    · split at h
      · rcases List.mem_cons.1 h with h | h
        · exact .inl h
        · exact .inr (List.mem_cons_of_mem _ h)
      · rcases List.mem_cons.1 h with h | h
        · exact .inr (by simp [h])
        · exact (ih h).imp_right (List.mem_cons_of_mem _)

/-- A write keeps the canonical form. -/
theorem Memory.wf_write {m : Memory} (h : m.wf) {a : Nat} (ha : a < 65536) (v : Byte) : (Memory.write m a v).wf := by
  refine ⟨?_, fun c hc => ?_⟩
  · obtain ⟨hp, -⟩ := h
    induction m with
    | nil => simp [Memory.write]
    | cons d m ih =>
      obtain ⟨k, w⟩ := d
      obtain ⟨hk, hm⟩ := List.pairwise_cons.1 hp
      simp only [Memory.write]
      split
      · rename_i hlt
        refine List.pairwise_cons.2 ⟨fun c hc => ?_, hp⟩
        rcases List.mem_cons.1 hc with rfl | hc
        · exact hlt
        · exact lt_trans hlt (hk c hc)
      · split
        · rename_i heq
          exact List.pairwise_cons.2 ⟨fun c hc => heq ▸ hk c hc, hm⟩
        · refine List.pairwise_cons.2 ⟨fun c hc => ?_, ih hm⟩
          rcases Memory.mem_write hc with rfl | hc
          · simp only; omega
          · exact hk c hc
  · rcases Memory.mem_write hc with rfl | hc
    · exact ha
    · exact h.2 c hc

/-! ## The operations on the state -/

/-- The byte at an address after one was written. -/
theorem State.byteAt_setMem_write (s : State) (a b : Addr) (v : Byte) :
    (s.setMem (s.mem.write a.toNat v)).byteAt b = if b = a then v else s.byteAt b := by
  by_cases h : b = a
  · simp [State.byteAt, Memory.lookup_write, h]
  · have : b.toNat ≠ a.toNat := fun e => h (BitVec.eq_of_toNat_eq e)
    simp [State.byteAt, Memory.lookup_write, h, this]

/-- A write request leaves the contents alone or writes the one byte. -/
theorem State.memAfterWrite_cases (s : State) (a : Addr) (v : Byte) :
    s.memAfterWrite a v = s.mem ∨ s.memAfterWrite a v = s.mem.write a.toNat v := by
  unfold State.memAfterWrite
  repeat' split
  all_goals simp

theorem State.wf_memAfterWrite {s : State} (h : s.mem.wf) (a : Addr) (v : Byte) : (s.memAfterWrite a v).wf := by
  rcases s.memAfterWrite_cases a v with e | e <;> rw [e]
  · exact h
  · exact Memory.wf_write h a.isLt v

theorem State.wf_poke {s : State} (h : s.mem.wf) (a : Addr) (v : Byte) : (s.poke a v).mem.wf :=
  Memory.wf_write h a.isLt v

@[simp] theorem State.mapPlain_mem (s : State) (a : Addr) : (s.mapPlain a).mem = s.mem := by
  unfold State.mapPlain
  split <;> rfl

theorem State.wf_place {s : State} (h : s.mem.wf) (a : Addr) (bs : List Byte) : (s.place a bs).mem.wf := by
  induction bs generalizing s a with
  | nil => exact h
  | cons b bs ih => exact ih (by rw [State.mapPlain_mem]; exact State.wf_poke h a b) _

theorem State.wf_withFetchWord {s : State} (h : s.mem.wf) (nbits w : Nat) : (s.withFetchWord nbits w).mem.wf :=
  State.wf_place h _ _

theorem State.wf_reset : State.reset.mem.wf := by decide

end Sys2Proof.Machine
end

