-- ==== Sys2Proof/Laws/Ops.lean ====
section
/-! SUPPORT. What each shared operation can do, once: the requests of the memory port and the four shared meanings. -/

namespace Sys2Proof.Machine

/-! ## Requests -/

/-- What a read request can come to. -/
theorem memRead_cases (a : Addr) (s : State) :
    (∃ b, s.readAnswer a = .value b ∧ memRead a s = .ok b (s.record (.read a (.value b)))) ∨
    (s.readAnswer a = .fault ∧ memRead a s = .fault a .read (s.record (.read a .fault))) ∨
    (s.readAnswer a = .silent ∧ memRead a s = .stuck (.noAnswer a .read)) := by
  unfold memRead
  cases s.readAnswer a <;> simp

/-- What a write request can come to: the state after it is the one before with the request recorded and either the
contents as they were or the one byte written. -/
theorem memWrite_cases (a : Addr) (v : Byte) (s : State) :
    (s.writeAnswer a v = .completed ∧
      memWrite a v s = .ok () ((s.setMem (s.memAfterWrite a v)).record (.write a v .completed))) ∨
    (s.writeAnswer a v = .fault ∧
      memWrite a v s = .fault a .write ((s.setMem (s.memAfterWrite a v)).record (.write a v .fault))) ∨
    (s.writeAnswer a v = .silent ∧ memWrite a v s = .stuck (.noAnswer a .write)) := by
  unfold memWrite
  cases s.writeAnswer a v <;> simp

theorem memRead_value {a : Addr} {s : State} {b : Byte} (h : s.readAnswer a = .value b) :
    memRead a s = .ok b (s.record (.read a (.value b))) := by
  simp [memRead, h]

theorem memRead_fault {a : Addr} {s : State} (h : s.readAnswer a = .fault) :
    memRead a s = .fault a .read (s.record (.read a .fault)) := by
  simp [memRead, h]

theorem memWrite_completed {a : Addr} {v : Byte} {s : State} (h : s.writeAnswer a v = .completed) :
    memWrite a v s = .ok () ((s.setMem (s.memAfterWrite a v)).record (.write a v .completed)) := by
  simp [memWrite, h]

theorem memWrite_fault {a : Addr} {v : Byte} {s : State} (h : s.writeAnswer a v = .fault) :
    memWrite a v s = .fault a .write ((s.setMem (s.memAfterWrite a v)).record (.write a v .fault)) := by
  simp [memWrite, h]

/-- Every byte but the one at the request's address is as before, whatever the memory answers. -/
theorem State.byteAt_memAfterWrite_ne (s : State) {a b : Addr} (h : b ≠ a) (v : Byte) :
    (s.setMem (s.memAfterWrite a v)).byteAt b = s.byteAt b := by
  rcases s.memAfterWrite_cases a v with e | e <;> rw [e]
  · rfl
  · rw [State.byteAt_setMem_write, if_neg h]

/-- Reading a value or a fault is answered by the same memory as long as the map, the contents and the requests agree. -/
theorem State.readAnswer_congr {s t : State} (hr : t.regions = s.regions) (hm : t.mem = s.mem) (hl : t.log = s.log)
    (a : Addr) : t.readAnswer a = s.readAnswer a := by
  unfold State.readAnswer
  rw [State.kindAt_congr hr, State.byteAt_congr hm, hl]

/-- An address that stands in RAM or read-only memory is answered with what memory holds, whatever was requested before. -/
theorem State.readAnswer_plain {s : State} {a : Addr} (h : s.kindAt a = .ram ∨ s.kindAt a = .readOnly) :
    s.readAnswer a = .value (s.byteAt a) := by
  unfold State.readAnswer
  rcases h with h | h <;> rw [h]

/-! ## The shared meanings -/

/-- If a load answers a next state, either the value was read and loaded, or the read faulted. -/
theorem loadRegister_next {r : Reg} {m : Source} {s t : State} (h : loadRegister r m s = .next t) :
    (∃ v s', resolveValue m s = .ok v s' ∧ t = raise .continues (loadValue r m.length v s')) ∨
    (∃ a k s', resolveValue m s = .fault a k s' ∧ t = raiseMemoryFault a k s') := by
  unfold loadRegister at h
  cases hv : resolveValue m s <;> simp only [hv, Result.finish, complete, Host.Outcome.next.injEq, reduceCtorEq] at h
  · exact .inl ⟨_, _, rfl, h.symm⟩
  · exact .inr ⟨_, _, _, rfl, h.symm⟩

/-- If a store answers a next state, either the write completed and PC moved on, or it faulted. -/
theorem storeRegister_next {r : Reg} {m : Dest} {s t : State} (h : storeRegister r m s = .next t) :
    (∃ s', memWrite m.address (s.reg r) s = .ok () s' ∧ t = raise .continues (s'.setPc (s'.pc + m.length))) ∨
    (∃ a k s', memWrite m.address (s.reg r) s = .fault a k s' ∧ t = raiseMemoryFault a k s') := by
  unfold storeRegister at h
  cases hv : memWrite m.address (s.reg r) s <;>
    simp only [hv, Result.finish, complete, Host.Outcome.next.injEq, reduceCtorEq] at h
  · exact .inl ⟨_, rfl, h.symm⟩
  · exact .inr ⟨_, _, _, rfl, h.symm⟩

/-- A branch always answers a next state, in which only PC and the response have changed. -/
theorem branch_next {f : Flag} {e : Bool} {off : Addr} {s t : State} (h : branch f e off s = .next t) :
    t = raise .continues (s.setPc (if getFlag s.p f = e then takenTarget s.pc off else s.pc + 2)) := by
  simpa only [branch, complete, Host.Outcome.next.injEq, eq_comm] using h

/-- A flag op always answers a next state, in which one flag has been written and PC is past the opcode. -/
theorem flagOp_next {f : Flag} {b : Bool} {s t : State} (h : flagOp f b s = .next t) :
    t = raise .continues ((s.setP (setFlag s.p f b)).setPc (s.pc + 1)) := by
  simpa only [flagOp, complete, Host.Outcome.next.injEq, eq_comm] using h

end Sys2Proof.Machine
end

