-- ==== Sys2Proof/Laws/PerInstr.lean ====
section
/-! SUPPORT. The per-instruction family `LengthFromOpcode` (30_encoding R93): the number of bytes of an instruction's
encoding is its size, and its first byte alone says how many operand bytes follow. -/

namespace Sys2Proof.Laws.LengthFromOpcode

/-- The encoding has the instruction's size, and its opcode's format takes the bytes that follow the opcode. -/
def Statement (i : Instr) : Prop :=
  ∃ op operand sh, encode i = op :: operand ∧ shapeOf op = some sh ∧ sh.operandBytes = operand.length ∧
    i.size = operand.length + 1

theorem bpl (off : Addr) : Statement (.bpl off) := ⟨_, _, _, rfl, rfl, rfl, rfl⟩
theorem clc : Statement .clc := ⟨_, _, _, rfl, rfl, rfl, rfl⟩
theorem bmi (off : Addr) : Statement (.bmi off) := ⟨_, _, _, rfl, rfl, rfl, rfl⟩
theorem sec : Statement .sec := ⟨_, _, _, rfl, rfl, rfl, rfl⟩
theorem bvc (off : Addr) : Statement (.bvc off) := ⟨_, _, _, rfl, rfl, rfl, rfl⟩
theorem cli : Statement .cli := ⟨_, _, _, rfl, rfl, rfl, rfl⟩
theorem bvs (off : Addr) : Statement (.bvs off) := ⟨_, _, _, rfl, rfl, rfl, rfl⟩
theorem sei : Statement .sei := ⟨_, _, _, rfl, rfl, rfl, rfl⟩
theorem styZp (ea : Addr) : Statement (.styZp ea) := ⟨_, _, _, rfl, rfl, rfl, rfl⟩
theorem staZp (ea : Addr) : Statement (.staZp ea) := ⟨_, _, _, rfl, rfl, rfl, rfl⟩
theorem stxZp (ea : Addr) : Statement (.stxZp ea) := ⟨_, _, _, rfl, rfl, rfl, rfl⟩
theorem styAbs (ea : Addr) : Statement (.styAbs ea) := ⟨_, _, _, rfl, rfl, rfl, rfl⟩
theorem staAbs (ea : Addr) : Statement (.staAbs ea) := ⟨_, _, _, rfl, rfl, rfl, rfl⟩
theorem stxAbs (ea : Addr) : Statement (.stxAbs ea) := ⟨_, _, _, rfl, rfl, rfl, rfl⟩
theorem bcc (off : Addr) : Statement (.bcc off) := ⟨_, _, _, rfl, rfl, rfl, rfl⟩
theorem ldyImm (v : Byte) : Statement (.ldyImm v) := ⟨_, _, _, rfl, rfl, rfl, rfl⟩
theorem ldxImm (v : Byte) : Statement (.ldxImm v) := ⟨_, _, _, rfl, rfl, rfl, rfl⟩
theorem ldyZp (ea : Addr) : Statement (.ldyZp ea) := ⟨_, _, _, rfl, rfl, rfl, rfl⟩
theorem ldaZp (ea : Addr) : Statement (.ldaZp ea) := ⟨_, _, _, rfl, rfl, rfl, rfl⟩
theorem ldxZp (ea : Addr) : Statement (.ldxZp ea) := ⟨_, _, _, rfl, rfl, rfl, rfl⟩
theorem ldaImm (v : Byte) : Statement (.ldaImm v) := ⟨_, _, _, rfl, rfl, rfl, rfl⟩
theorem ldyAbs (ea : Addr) : Statement (.ldyAbs ea) := ⟨_, _, _, rfl, rfl, rfl, rfl⟩
theorem ldaAbs (ea : Addr) : Statement (.ldaAbs ea) := ⟨_, _, _, rfl, rfl, rfl, rfl⟩
theorem ldxAbs (ea : Addr) : Statement (.ldxAbs ea) := ⟨_, _, _, rfl, rfl, rfl, rfl⟩
theorem bcs (off : Addr) : Statement (.bcs off) := ⟨_, _, _, rfl, rfl, rfl, rfl⟩
theorem clv : Statement .clv := ⟨_, _, _, rfl, rfl, rfl, rfl⟩
theorem bne (off : Addr) : Statement (.bne off) := ⟨_, _, _, rfl, rfl, rfl, rfl⟩
theorem cld : Statement .cld := ⟨_, _, _, rfl, rfl, rfl, rfl⟩
theorem beq (off : Addr) : Statement (.beq off) := ⟨_, _, _, rfl, rfl, rfl, rfl⟩
theorem sed : Statement .sed := ⟨_, _, _, rfl, rfl, rfl, rfl⟩

end Sys2Proof.Laws.LengthFromOpcode
end

