-- ==== Sys2Proof/Laws/Run.lean ====
section
/-! SUPPORT. One command more of a run: what it can do to the run and its record. -/

namespace Sys2Proof.Machine

/-- A command that answers takes the run to its next state and adds what it reports to the record. -/
theorem Run.next_of_step {r : Run} {t : State} (hs : r.stuck = false) (h : step r.state = .next t) :
    r.next = { r with state := t, terminals := r.terminals ++ t.newTerminals } := by
  simp [Run.next, hs, h]

/-- A run that is stuck stays as it is. -/
theorem Run.next_of_stuck {r : Run} (hs : r.stuck = true) : r.next = r := by simp [Run.next, hs]

/-- What a command whose response is a STEP's outcome adds: nothing for Continue, else that outcome with PC. -/
theorem State.newTerminals_step {t : State} {o : StepOutcome} (h : t.response = some (.step o)) :
    t.newTerminals = if o = .continues then [] else [{ outcome := o, pc := t.pc }] := by
  cases o <;> simp [State.newTerminals, h, terminalIn]

end Sys2Proof.Machine
end

