-- ==== Sys2Proof/Laws/Step.lean ====
section
/-! SUPPORT. Everything an instruction, an operand fetch and a STEP can do, each said once. -/

namespace Sys2Proof.Machine

/-! ## Instructions -/

/-- Which shared meaning an instruction runs. -/
inductive ExecCase (i : Instr) (s : State) (o : Host.Outcome State Fault Refusal) : Prop where
  | immediateLoad (r : Reg) (v : Byte) (hi : i = .ldaImm v ∨ i = .ldxImm v ∨ i = .ldyImm v)
      (h : loadRegister r (.immediate v) s = o)
  | memoryLoad (r : Reg) (m : Source) (ea : Addr)
      (hi : i = .ldaZp ea ∨ i = .ldxZp ea ∨ i = .ldyZp ea ∨ i = .ldaAbs ea ∨ i = .ldxAbs ea ∨ i = .ldyAbs ea)
      (hm : m = .zeroPage ea ∨ m = .absolute ea) (h : loadRegister r m s = o)
  | store (r : Reg) (m : Dest)
      (hi : i = .staZp m.address ∨ i = .stxZp m.address ∨ i = .styZp m.address ∨ i = .staAbs m.address ∨
        i = .stxAbs m.address ∨ i = .styAbs m.address)
      (h : storeRegister r m s = o)
  | branch (f : Flag) (e : Bool) (off : Addr) (h : branch f e off s = o)
  | flagOp (f : Flag) (b : Bool)
      (hi : (f = .v ∧ b = true ∧ i = .clv) ∨ (f = .d ∧ (i = .sed ∨ i = .cld)) ∨ (f = .i ∧ (i = .sei ∨ i = .cli)) ∨
        (f = .c ∧ (i = .sec ∨ i = .clc)))
      (h : flagOp f b s = o)

/-- Every instruction runs one of the four shared meanings. -/
theorem exec_cases (i : Instr) (s : State) : ExecCase i s (exec i s) := by
  cases i with
  | ldaImm v => exact .immediateLoad .a v (by simp) rfl
  | ldxImm v => exact .immediateLoad .x v (by simp) rfl
  | ldyImm v => exact .immediateLoad .y v (by simp) rfl
  | ldaZp ea => exact .memoryLoad .a (.zeroPage ea) ea (by simp) (by simp) rfl
  | ldxZp ea => exact .memoryLoad .x (.zeroPage ea) ea (by simp) (by simp) rfl
  | ldyZp ea => exact .memoryLoad .y (.zeroPage ea) ea (by simp) (by simp) rfl
  | ldaAbs ea => exact .memoryLoad .a (.absolute ea) ea (by simp) (by simp) rfl
  | ldxAbs ea => exact .memoryLoad .x (.absolute ea) ea (by simp) (by simp) rfl
  | ldyAbs ea => exact .memoryLoad .y (.absolute ea) ea (by simp) (by simp) rfl
  | staZp ea => exact .store .a (.zeroPage ea) (by simp [Dest.address]) rfl
  | stxZp ea => exact .store .x (.zeroPage ea) (by simp [Dest.address]) rfl
  | styZp ea => exact .store .y (.zeroPage ea) (by simp [Dest.address]) rfl
  | staAbs ea => exact .store .a (.absolute ea) (by simp [Dest.address]) rfl
  | stxAbs ea => exact .store .x (.absolute ea) (by simp [Dest.address]) rfl
  | styAbs ea => exact .store .y (.absolute ea) (by simp [Dest.address]) rfl
  | bpl off => exact .branch .n false off rfl
  | bmi off => exact .branch .n true off rfl
  | bvc off => exact .branch .v false off rfl
  | bvs off => exact .branch .v true off rfl
  | bcc off => exact .branch .c false off rfl
  | bcs off => exact .branch .c true off rfl
  | bne off => exact .branch .z false off rfl
  | beq off => exact .branch .z true off rfl
  | clc => exact .flagOp .c false (by simp) rfl
  | sec => exact .flagOp .c true (by simp) rfl
  | cli => exact .flagOp .i false (by simp) rfl
  | sei => exact .flagOp .i true (by simp) rfl
  | clv => exact .flagOp .v true (by simp) rfl
  | cld => exact .flagOp .d false (by simp) rfl
  | sed => exact .flagOp .d true (by simp) rfl

/-! ## The operand fetch -/

/-- What an operand fetch can come to: requests recorded, and an instruction, a fault, or no answer. -/
inductive OperandCase (s : State) : Result Instr → Prop where
  | ok (i : Instr) (l : List Transaction) : OperandCase s (.ok i { s with log := s.log ++ l })
  | fault (a : Addr) (l : List Transaction) : OperandCase s (.fault a .read { s with log := s.log ++ l })
  | stuck (a : Addr) : OperandCase s (.stuck (.noAnswer a .read))

theorem fetchOperand_cases (sh : Shape) (s : State) : OperandCase s (fetchOperand sh s) := by
  have one (make : Byte → Instr) :
      OperandCase s ((memRead (s.pc + 1) s).andThen fun v s' => .ok (make v) s') := by
    rcases memRead_cases (s.pc + 1) s with ⟨b, -, e⟩ | ⟨-, e⟩ | ⟨-, e⟩ <;> rw [e]
    · exact .ok _ _
    · exact .fault _ _
    · exact .stuck _
  cases sh with
  | implied i => simpa [fetchOperand] using OperandCase.ok (s := s) i []
  | immediate make => exact one make
  | zeroPage make => exact one fun z => make (zext16 z)
  | relative make => exact one fun d => make (sext16 d)
  | absolute make =>
    simp only [fetchOperand, memRead16]
    rcases memRead_cases (s.pc + 1) s with ⟨lo, -, e⟩ | ⟨-, e⟩ | ⟨-, e⟩ <;> rw [e]
    · simp only [Result.andThen]
      rcases memRead_cases (s.pc + 1 + 1) (s.record (.read (s.pc + 1) (.value lo))) with ⟨hi, -, e⟩ | ⟨-, e⟩ | ⟨-, e⟩ <;>
        rw [e]
      · simpa [State.record] using OperandCase.ok (s := s) (make (hiLo hi lo))
          [.read (s.pc + 1) (.value lo), .read (s.pc + 1 + 1) (.value hi)]
      · simpa [State.record] using OperandCase.fault (s := s) (s.pc + 1 + 1)
          [.read (s.pc + 1) (.value lo), .read (s.pc + 1 + 1) .fault]
      · exact .stuck _
    · exact .fault _ _
    · exact .stuck _

/-! ## The step -/

/-- The state of a STEP past its opcode fetch and trace record, with the requests made since. -/
def State.inStep (s : State) (op : Byte) (l : List Transaction) : State :=
  { s with log := s.log ++ .read s.pc (.value op) :: l, trace := some (traceRecord s op) }

/-- Requests made after the opcode fetch are appended. -/
theorem State.inStep_append (s : State) (op : Byte) (l : List Transaction) :
    { s.inStep op [] with log := (s.inStep op []).log ++ l } = s.inStep op l := by
  simp [State.inStep]

/-- Everything a STEP can do, its terminal outcomes in the order of their priority (60_exceptions R265). -/
inductive StepCase (s : State) (o : Host.Outcome State Fault Refusal) : Prop where
  | stuck (a : Addr) (ho : o = .fault (.noAnswer a .read))
  | fetchFault (hr : s.readAnswer s.pc = .fault)
      (ho : o = .next (raiseFetchFault s.pc .read (s.record (.read s.pc .fault))))
  | corrupted (op : Byte) (hr : s.readAnswer s.pc = .value op) (hv : validateState s ≠ [])
      (ho : o = .next (raiseCorruptedState (validateState s) (s.inStep op [])))
  | unknown (op : Byte) (hr : s.readAnswer s.pc = .value op) (hv : validateState s = []) (hs : shapeOf op = none)
      (ho : o = .next (raiseUnknownOpcode op (s.inStep op [])))
  | operandFault (op : Byte) (a : Addr) (l : List Transaction) (hr : s.readAnswer s.pc = .value op)
      (hv : validateState s = []) (ho : o = .next (raiseMemoryFault a .read (s.inStep op l)))
  | run (op : Byte) (i : Instr) (l : List Transaction) (hr : s.readAnswer s.pc = .value op)
      (hv : validateState s = []) (ho : o = exec i (s.inStep op l))

theorem stepCommand_cases (s : State) : StepCase s (stepCommand s) := by
  unfold stepCommand fetchInstr
  rcases memRead_cases s.pc s with ⟨op, hr, e⟩ | ⟨hr, e⟩ | ⟨-, e⟩ <;> rw [e]
  · have hin : ((s.record (.read s.pc (.value op))).emit
        (some (traceRecord (s.record (.read s.pc (.value op))) op))) = s.inStep op [] := rfl
    have hval : validateState (s.inStep op []) = validateState s := rfl
    simp only [hin, hval]
    split
    · rename_i s' heq
      split at heq
      · rename_i hv
        unfold decodeAndFetch at heq
        split at heq
        · cases heq
        · rename_i sh hs
          have hc := fetchOperand_cases sh (s.inStep op [])
          generalize fetchOperand sh (s.inStep op []) = r at hc heq
          cases hc with
          | ok i l => cases heq; exact .run op _ l hr hv (by rw [State.inStep_append])
          | fault a l => cases heq
          | stuck a => cases heq
      · cases heq
    · rename_i s' heq
      split at heq
      · rename_i hv
        unfold decodeAndFetch at heq
        split at heq
        · rename_i hs
          cases heq
          exact .unknown op hr hv hs rfl
        · rename_i sh hs
          have hc := fetchOperand_cases sh (s.inStep op [])
          generalize fetchOperand sh (s.inStep op []) = r at hc heq
          cases hc with
          | ok i l => cases heq
          | fault a l => cases heq; exact .operandFault op _ l hr hv (by rw [State.inStep_append])
          | stuck a => cases heq
      · rename_i hv
        cases heq
        exact .corrupted op hr hv rfl
    · rename_i f heq
      split at heq
      · unfold decodeAndFetch at heq
        split at heq
        · cases heq
        · rename_i sh hs
          have hc := fetchOperand_cases sh (s.inStep op [])
          generalize fetchOperand sh (s.inStep op []) = r at hc heq
          cases hc with
          | ok i l => cases heq
          | fault a l => cases heq
          | stuck a => cases heq; exact .stuck _ rfl
      · cases heq
  · exact .fetchFault hr rfl
  · exact .stuck _ rfl

/-- Taking the next command leaves the rest of the list. -/
theorem nextCommand_snd (s : State) : (nextCommand s).2 = { s with commands := s.commands.tail } := by
  obtain ⟨_, _, _, _, _, _, _, _, _, cs, _, _⟩ := s
  cases cs <;> rfl

/-- Where the next command is a STEP, listed or issued by the host on its own, a step is that STEP. -/
theorem step_eq_stepCommand {s : State} (h : (nextCommand s).1 = .step) :
    step s = stepCommand { s with commands := s.commands.tail } := by
  simp [step, h, runCommand, nextCommand_snd]

end Sys2Proof.Machine
end

