-- ==== Sys2Proof/Tests/Slice0.lean ====
section
/-! SUPPORT. Tests of the model against the spec's own examples and vectors (95_test_vectors), and for every statement of
Certificates/Slice0/Obligations.lean that has hypotheses a witness that meets them. -/

namespace Sys2Proof.Tests

open Sys2Proof Sys2Proof.Machine

/-- The fresh state with PC and some bytes of memory set. -/
def atPc (pc : Addr) (cells : Memory) : State := { State.reset with pc := pc, mem := cells }

/-- The next state of an outcome that has one. -/
def after : Host.Outcome State Fault Refusal → Option State
  | .next t => some t
  | .fault _ | .refused _ => none

/-- A few fields of the state after a step. -/
def look (o : Host.Outcome State Fault Refusal) (f : State → α) : Option α := (after o).map f

/-! ## Well-formedness: one ill-formed term for each check -/

theorem test_zero_page_operand_outside_page_refused : (Instr.staZp 0x0100).wellFormed = false := by decide
theorem test_branch_offset_above_127_refused : (Instr.beq 0x0080).wellFormed = false := by decide
theorem test_branch_offset_below_minus_128_refused : (Instr.bpl 0xFF7F).wellFormed = false := by decide
theorem test_wellformed_at_the_ends :
    (Instr.staZp 0x00FF).wellFormed = true ∧ (Instr.beq 0x007F).wellFormed = true ∧
      (Instr.bpl 0xFF80).wellFormed = true := by decide

/-! ## Decoding: a word of each row, written out from 30_encoding R91, R95 -/

theorem test_decode_bpl : decode [0x10, 0x04] = .instr (.bpl 0x0004) [] := by decide
theorem test_decode_clc : decode [0x18] = .instr .clc [] := by decide
theorem test_decode_bmi : decode [0x30, 0xFF] = .instr (.bmi 0xFFFF) [] := by decide
theorem test_decode_sec : decode [0x38] = .instr .sec [] := by decide
theorem test_decode_bvc : decode [0x50, 0x10] = .instr (.bvc 0x0010) [] := by decide
theorem test_decode_cli : decode [0x58] = .instr .cli [] := by decide
theorem test_decode_bvs : decode [0x70, 0x80] = .instr (.bvs 0xFF80) [] := by decide
theorem test_decode_sei : decode [0x78] = .instr .sei [] := by decide
theorem test_decode_styZp : decode [0x84, 0x00] = .instr (.styZp 0x0000) [] := by decide
theorem test_decode_staZp : decode [0x85, 0x10] = .instr (.staZp 0x0010) [] := by decide
theorem test_decode_stxZp : decode [0x86, 0xFF] = .instr (.stxZp 0x00FF) [] := by decide
theorem test_decode_styAbs : decode [0x8C, 0x03, 0x02] = .instr (.styAbs 0x0203) [] := by decide
theorem test_decode_staAbs : decode [0x8D, 0x05, 0x02] = .instr (.staAbs 0x0205) [] := by decide
theorem test_decode_stxAbs : decode [0x8E, 0x34, 0x12] = .instr (.stxAbs 0x1234) [] := by decide
theorem test_decode_bcc : decode [0x90, 0xFE] = .instr (.bcc 0xFFFE) [] := by decide
theorem test_decode_ldyImm : decode [0xA0, 0x81] = .instr (.ldyImm 0x81) [] := by decide
theorem test_decode_ldxImm : decode [0xA2, 0x7F] = .instr (.ldxImm 0x7F) [] := by decide
theorem test_decode_ldyZp : decode [0xA4, 0x00] = .instr (.ldyZp 0x0000) [] := by decide
theorem test_decode_ldaZp : decode [0xA5, 0x10] = .instr (.ldaZp 0x0010) [] := by decide
theorem test_decode_ldxZp : decode [0xA6, 0x80] = .instr (.ldxZp 0x0080) [] := by decide
theorem test_decode_ldaImm : decode [0xA9, 0x05] = .instr (.ldaImm 0x05) [] := by decide
theorem test_decode_ldyAbs : decode [0xAC, 0x34, 0x12] = .instr (.ldyAbs 0x1234) [] := by decide
theorem test_decode_ldaAbs : decode [0xAD, 0x10, 0x00] = .instr (.ldaAbs 0x0010) [] := by decide
theorem test_decode_ldxAbs : decode [0xAE, 0xFF, 0xFF] = .instr (.ldxAbs 0xFFFF) [] := by decide
theorem test_decode_bcs : decode [0xB0, 0x03] = .instr (.bcs 0x0003) [] := by decide
theorem test_decode_clv : decode [0xB8] = .instr .clv [] := by decide
theorem test_decode_bne : decode [0xD0, 0xFC] = .instr (.bne 0xFFFC) [] := by decide
theorem test_decode_cld : decode [0xD8] = .instr .cld [] := by decide
theorem test_decode_beq : decode [0xF0, 0x01] = .instr (.beq 0x0001) [] := by decide
theorem test_decode_sed : decode [0xF8] = .instr .sed [] := by decide

/-- 44_flag_ops R238 and vector section 2.3: 0x98 and 0x89 are unknown; 30_encoding R93: an operand byte can be missing. -/
theorem test_decode_refuses :
    decode [0x98] = .refused (.unknownOpcode 0x98) ∧ decode [0x89, 0x10] = .refused (.unknownOpcode 0x89) ∧
      decode [0xAD, 0x10] = .refused (.missingOperand 0xAD) ∧ decode [] = .refused .noBytes := by decide

set_option maxRecDepth 4000 in
/-- Exactly 226 of the 256 opcode bytes are unknown (R99). -/
theorem test_unknown_count :
    ((List.range 256).filter fun n => (shapeOf (BitVec.ofNat 8 n)).isNone).length = 226 := by decide

/-- The opcode table's numbering: the second byte is bits 15 to 8. -/
theorem test_decodeTableWord :
    decodeTableWord 16 0x05A9 = some (.ldaImm 0x05) ∧ decodeTableWord 8 0xAD = some (.ldaAbs 0) := by decide

/-! ## Steps, from the vectors of 95_test_vectors -/

/-- L2: A9 00 from A=37, P=A0. -/
theorem test_lda_imm_zero :
    look (step { atPc 0x0200 [(0x200, 0xA9), (0x201, 0x00)] with a := 0x37, p := 0xA0 }) (fun t => (t.a, t.p, t.pc))
      = some (0x00, 0x22, 0x0202) := by decide
/-- L5: A9 FF from P=6D keeps V, D, I, C. -/
theorem test_lda_imm_keeps_flags :
    look (step { atPc 0x0200 [(0x200, 0xA9), (0x201, 0xFF)] with p := 0x6D }) (fun t => (t.a, t.p)) = some (0xFF, 0xED) := by
  decide
/-- L9: A6 FF with 00FF=80. -/
theorem test_ldx_zp :
    look (step (atPc 0x0200 [(0xFF, 0x80), (0x200, 0xA6), (0x201, 0xFF)])) (fun t => (t.x, t.p, t.pc))
      = some (0x80, 0xA0, 0x0202) := by decide
/-- R181: AC 00 02 reads its own opcode. -/
theorem test_ldy_abs_own_opcode :
    look (step (atPc 0x0200 [(0x200, 0xAC), (0x201, 0x00), (0x202, 0x02)])) (fun t => (t.y, t.p, t.pc))
      = some (0xAC, 0xA0, 0x0203) := by decide
/-- L18: an absolute operand that spans the wrap, with its requests. -/
theorem test_lda_abs_wraps :
    look (step (atPc 0xFFFE [(0x0000, 0x20), (0x2010, 0x77), (0xFFFE, 0xAD), (0xFFFF, 0x10)])) (fun t => (t.a, t.pc, t.log))
      = some (0x77, 0x0001, [.read 0xFFFE (.value 0xAD), .read 0xFFFF (.value 0x10), .read 0x0000 (.value 0x20),
          .read 0x2010 (.value 0x77)]) := by decide
/-- W1: 85 10 from A=05, P=22. -/
theorem test_sta_zp :
    look (step { atPc 0x0202 [(0x202, 0x85), (0x203, 0x10)] with a := 0x05, p := 0x22 })
      (fun t => (t.byteAt 0x0010, t.p, t.pc, t.log))
      = some (0x05, 0x22, 0x0204, [.read 0x0202 (.value 0x85), .read 0x0203 (.value 0x10), .write 0x0010 0x05 .completed]) := by
  decide
/-- W5: 8E 34 12 from X=01, P=A0. -/
theorem test_stx_abs :
    look (step { atPc 0x0200 [(0x200, 0x8E), (0x201, 0x34), (0x202, 0x12)] with x := 0x01, p := 0xA0 })
      (fun t => (t.byteAt 0x1234, t.p, t.pc)) = some (0x01, 0xA0, 0x0203) := by decide
/-- W3: 84 00 from Y=00 over AA. -/
theorem test_sty_zp :
    look (step (atPc 0x0200 [(0x0, 0xAA), (0x200, 0x84), (0x201, 0x00)])) (fun t => t.byteAt 0x0000) = some 0x00 := by decide
/-- R203: BPL taken from op = 0300 with d = 04. -/
theorem test_bpl_taken :
    look (step (atPc 0x0300 [(0x300, 0x10), (0x301, 0x04)])) (fun t => t.pc) = some 0x0305 := by decide
/-- B15: BEQ backward by 128. -/
theorem test_beq_backward :
    look (step { atPc 0x0300 [(0x300, 0xF0), (0x301, 0x80)] with p := 0x22 }) (fun t => t.pc) = some 0x0281 := by decide
/-- B20: BNE wraps past the top of memory. -/
theorem test_bne_wraps :
    look (step (atPc 0xFFF0 [(0xFFF0, 0xD0), (0xFFF1, 0x7F)])) (fun t => t.pc) = some 0x0070 := by decide
/-- B10: BCC not taken. -/
theorem test_bcc_not_taken :
    look (step { atPc 0x0300 [(0x300, 0x90), (0x301, 0xFE)] with p := 0x21 }) (fun t => t.pc) = some 0x0302 := by decide
/-- G7: CLV sets V. -/
theorem test_clv_sets_v :
    look (step (atPc 0x0400 [(0x400, 0xB8)])) (fun t => (t.p, t.pc)) = some (0x60, 0x0401) := by decide
/-- G12: CLC from FF. -/
theorem test_clc : look (step { atPc 0x0400 [(0x400, 0x18)] with p := 0xFF }) (fun t => t.p) = some 0xFE := by decide
/-- G6, G10, G3: SEI, SED, SEC. -/
theorem test_sei : look (step (atPc 0x0400 [(0x400, 0x78)])) (fun t => t.p) = some 0x24 := by decide
theorem test_sed : look (step (atPc 0x0400 [(0x400, 0xF8)])) (fun t => t.p) = some 0x28 := by decide
theorem test_sec : look (step (atPc 0x0400 [(0x400, 0x38)])) (fun t => t.p) = some 0x21 := by decide

/-- X1: an unknown opcode, its outcome, PC and trace record. -/
theorem test_unknown_opcode :
    look (step (atPc 0x0300 [(0x300, 0xFF)])) (fun t => (t.response, t.pc, t.trace))
      = some (some (.step (.unknownOpcode 0xFF)), 0x0301,
          some ⟨0x0300, 0xFF, ⟨0, 0, 0, 0xFF, 0x20, 0x0300⟩, ['-', '-', '1', '-', '-', '-', '-', '-']⟩) := by decide
/-- X5: CorruptedState comes before UnknownOpcode. -/
theorem test_corrupted_before_unknown :
    look (step { atPc 0x0300 [(0x300, 0xFF)] with p := 0x00 }) (fun t => (t.response, t.pc))
      = some (some (.step (.corruptedState [.alwaysFlagClear])), 0x0300) := by decide
/-- X7: a fetch fault comes before CorruptedState; no trace record. -/
theorem test_fetch_fault_first :
    look (step { atPc 0x0300 [] with p := 0x00, regions := [⟨0x0300, 1, .unmapped⟩] }) (fun t => (t.response, t.pc, t.trace))
      = some (some (.step (.memoryFault 0x0300 .read)), 0x0300, none) := by decide
/-- L20: the data read faults; A and P unchanged. -/
theorem test_data_fault :
    look (step { atPc 0x0200 [(0x200, 0xA5), (0x201, 0x10)] with regions := [⟨0x0010, 1, .unmapped⟩] })
      (fun t => (t.response, t.a, t.p)) = some (some (.step (.memoryFault 0x0010 .read)), 0x00, 0x20) := by decide
/-- R62: a store to a read-only location changes nothing. -/
theorem test_store_read_only :
    look (step { atPc 0x0200 [(0x10, 0x77), (0x200, 0x85), (0x201, 0x10)] with a := 5, regions := [⟨0x0010, 1, .readOnly⟩] })
      (fun t => (t.byteAt 0x0010, t.response)) = some (0x77, some (.step .continues)) := by decide

/-! ## The other commands -/

/-- Z3: RESET touches PC only. -/
theorem test_reset :
    look (step { atPc 0x1234 [(0xFFFC, 0xCD), (0xFFFD, 0xAB)] with
        a := 0x11, x := 0x22, y := 0x33, sp := 0x44, p := 0xED, commands := [.reset] }) State.snapshot
      = some ⟨0x11, 0x22, 0x33, 0x44, 0xED, 0xABCD⟩ := by decide
/-- Z5: the second vector read faults. -/
theorem test_reset_fault :
    look (step { atPc 0x1234 [(0xFFFC, 0xCD)] with commands := [.reset], regions := [⟨0xFFFD, 1, .unmapped⟩] })
      (fun t => (t.pc, t.response)) = some (0x1234, some (.reset (.memoryFault 0xFFFD .read))) := by decide
/-- Z8, Z9: VALIDATE. -/
theorem test_validate :
    validateState { State.reset with p := 0xDF } = [.alwaysFlagClear] ∧ validateState { State.reset with p := 0xBE } = [] := by
  decide
/-- Z10: SNAPSHOT_LOAD. -/
theorem test_snapshot_load :
    look (step { State.reset with commands := [.snapshotLoad ⟨0x9C, 0x00, 0x7F, 0x01, 0xE3, 0xFFFE⟩] }) State.snapshot
      = some ⟨0x9C, 0x00, 0x7F, 0x01, 0xE3, 0xFFFE⟩ := by decide

/-- S14, F4, F7: the status string. -/
theorem test_status_string :
    statusString 0xFF = ['N', 'V', '1', 'B', 'D', 'I', 'Z', 'C'] ∧
      statusString 0x22 = ['-', '-', '1', '-', '-', '-', 'Z', '-'] ∧
      statusString 0x00 = ['-', '-', '-', '-', '-', '-', '-', '-'] := by decide

/-- Programs P2 and P6: branch targets as the assembler encodes them. -/
theorem test_assemble :
    (assemble 0x0201 ['B', 'C', 'S'] (.fourDigits 0x0205)).map encode = some [0xB0, 0x03] ∧
      (assemble 0x0202 ['B', 'M', 'I'] (.fourDigits 0x0202)).map encode = some [0x30, 0xFF] ∧
      (assemble 0x0200 ['L', 'D', 'A'] (.fourDigits 0x0010)).map encode = some [0xAD, 0x10, 0x00] ∧
      assemble 0x0200 ['S', 'T', 'A'] (.immediate 5) = none := by decide

/-- Lines of programs P1 and P4, a raw offset, and a rejected line. -/
theorem test_assembleLine :
    assembleLine 0x0200 ['L', 'D', 'A', ' ', '#', '$', '0', '5'] = some (.ldaImm 0x05) ∧
      assembleLine 0x0202 ['S', 'T', 'A', ' ', '$', '1', '0'] = some (.staZp 0x0010) ∧
      assembleLine 0x0204 ['B', 'V', 'S', ' ', '$', '0', '2', '0', '7'] = some (.bvs 0x0002) ∧
      assembleLine 0x0200 ['B', 'N', 'E', ' ', '*', '-', '1', '2', '8'] = some (.bne 0xFF80) ∧
      assembleLine 0x0200 ['B', 'N', 'E', ' ', '*', '1', '2', '8'] = none ∧
      assembleLine 0x0200 ['S', 'E', 'D'] = some .sed := by decide

/-! ## An instruction placed where the first STEP fetches -/

theorem test_withFetchWord_runs :
    look (step (State.reset.withFetchWord 16 0x80A9)) (fun t => (t.a, t.p, t.pc)) = some (0x80, 0xA0, 0x0002) := by decide
theorem test_withFetchWord_over_device :
    look (step (State.withFetchWord { State.reset with regions := [⟨0, 0x10000, .device⟩], commands := [.reset] } 8 0x38))
      (fun t => (t.p, t.pc)) = some (0x21, 0x0001) := by decide

/-! ## Witnesses: each meets all the hypotheses of the statement it is named after -/

/-- LDA #$05 at 0x0200 with a vector, fresh otherwise. -/
def w : State := atPc 0x0200 [(0x10, 0x80), (0x200, 0xA9), (0x201, 0x05), (0xFFFC, 0x00), (0xFFFD, 0x02)]

/-- The same with nothing mapped at `a`. -/
def hole (a : Addr) : State := { w with regions := [⟨a, 1, .unmapped⟩] }

theorem witness_DecodeOfEncode : (Instr.staZp 0x00FF).wellFormed = true ∧ (Instr.bpl 0xFF80).wellFormed = true := by decide
theorem witness_EncodeOfDecode : decode [0x8D, 0x05, 0x02, 0x18] = .instr (.staAbs 0x0205) [0x18] := by decide
theorem witness_ThirtyKnownOpcodes : (0xF8 : Byte) ∈ ([0x10, 0xF8] : List Byte) := by decide
theorem witness_OpcodeDecidesLength :
    decode [0xAD, 0x34, 0x12] = .instr (.ldaAbs 0x1234) [] ∧ decode [0xAD, 0, 0, 7] = .instr (.ldaAbs 0) [7] := by decide
theorem witness_SetFlagOneBit : ∃ t, exec .sec w = .next t := ⟨_, rfl⟩
theorem witness_NzGenerator : (Flag.c ≠ .n) ∧ (Flag.c ≠ .z) := by decide
theorem witness_StatusStringRule : ['N', 'V', '1', 'B', 'D', 'I', 'Z', 'C'][7]? = some 'C' := by decide
theorem witness_FlagWriters : ∃ t, exec .sec w = .next t ∧ getFlag t.p .c ≠ getFlag w.p .c := ⟨_, rfl, by decide⟩
theorem witness_OverflowNeverCleared :
    ∃ t, (nextCommand { w with p := 0x60 }).1 = .step ∧ getFlag 0x60 .v = true ∧ step { w with p := 0x60 } = .next t :=
  ⟨_, rfl, by decide, rfl⟩
theorem witness_ClvThenOverflowBranches : ∃ t, exec .clv w = .next t := ⟨_, rfl⟩
theorem witness_DecimalInterruptBreakInert : Flag.b ∈ [Flag.d, Flag.i, Flag.b] ∧ ∃ t, exec .sed w = .next t :=
  ⟨by decide, _, rfl⟩
theorem witness_CanonicalMemoriesEqual : w.mem.wf ∧ ∀ a, Memory.lookup w.mem a = Memory.lookup w.mem a :=
  ⟨by decide, fun _ => rfl⟩
theorem witness_Read16LowThenHigh_values :
    w.readAnswer 0x0200 = .value 0xA9 ∧ (w.record (.read 0x0200 (.value 0xA9))).readAnswer 0x0201 = .value 0x05 := by decide
theorem witness_Read16LowThenHigh_first_fault : (hole 0x0200).readAnswer 0x0200 = .fault := by decide
theorem witness_Read16LowThenHigh_second_fault :
    (hole 0x0201).readAnswer 0x0200 = .value 0xA9 ∧
      ((hole 0x0201).record (.read 0x0200 (.value 0xA9))).readAnswer 0x0201 = .fault := by decide
theorem witness_RamReadsLastWrite : w.kindAt 0x0010 = .ram ∧ w.readable 0x0011 = true ∧ (0x0011 : Addr) ≠ 0x0010 := by decide
theorem witness_ReadOnlyWriteIgnored : ({ w with regions := [⟨0x0010, 1, .readOnly⟩] } : State).kindAt 0x0010 = .readOnly := by
  decide
theorem witness_StoreSeenByNextFetch :
    ∃ t u, (Instr.stxAbs 0x0203, Reg.x, (0x0203 : Addr)) ∈
        [(Instr.staAbs 0x0203, Reg.a, w.pc + 3), (Instr.stxAbs 0x0203, Reg.x, w.pc + 3)] ∧
      w.stepReady ∧ w.kindAt 0x0203 = .ram ∧ exec (.stxAbs 0x0203) w = .next t ∧ step t = .next u :=
  ⟨_, _, by decide, ⟨rfl, by decide⟩, by decide, rfl, rfl⟩
theorem witness_StoreSeenByNextFetch_zero_page :
    ∃ t u, (Instr.staZp 0x0012, Reg.a, (0x0012 : Addr)) ∈ [(Instr.staZp 0x0012, Reg.a, (atPc 0x0010 []).pc + 2)] ∧
      (atPc 0x0010 []).stepReady ∧ (atPc 0x0010 []).kindAt 0x0012 = .ram ∧
      exec (.staZp 0x0012) (atPc 0x0010 []) = .next t ∧ step t = .next u :=
  ⟨_, _, by decide, ⟨rfl, by decide⟩, by decide, rfl, rfl⟩
/-- A STEP the host has put on its list is one too. -/
theorem witness_stepReady_listed : ({ w with commands := [.step, .reset] } : State).stepReady := ⟨rfl, by decide⟩
theorem w_ready : w.stepReady := ⟨rfl, by decide⟩
theorem w_holds : w.holds w.pc [0xA9, 0x05] := ⟨by decide, by decide, by decide, by decide, trivial⟩
theorem witness_StepRunsDecoded :
    w.stepReady ∧ w.holds w.pc [0xA9, 0x05] ∧ decode [0xA9, 0x05] = .instr (.ldaImm 0x05) [] :=
  ⟨w_ready, w_holds, by decide⟩
theorem witness_StepFetchesOpcode_value : ∃ t, (nextCommand w).1 = .step ∧ w.readAnswer w.pc = .value 0xA9 ∧ step w = .next t :=
  ⟨_, rfl, by decide, rfl⟩
theorem witness_StepFetchesOpcode_fault :
    (nextCommand (hole 0x0200)).1 = .step ∧ (hole 0x0200).readAnswer (hole 0x0200).pc = .fault := by
  decide
theorem witness_StepEmitsTrace_value : ∃ t, (nextCommand w).1 = .step ∧ step w = .next t ∧ w.readAnswer w.pc = .value 0xA9 :=
  ⟨_, rfl, rfl, by decide⟩
theorem witness_StepEmitsTrace_fault :
    ∃ t, (nextCommand (hole 0x0200)).1 = .step ∧ step (hole 0x0200) = .next t ∧
      (hole 0x0200).readAnswer (hole 0x0200).pc = .fault :=
  ⟨_, rfl, rfl, by decide⟩
theorem witness_StepCorruptedState :
    (nextCommand { w with p := 0 }).1 = .step ∧ getFlag 0 .always = false ∧
      ({ w with p := 0 } : State).readAnswer w.pc = .value 0xA9 := by decide
theorem witness_StepUnknownOpcode :
    (atPc 0x0300 [(0x300, 0xFF)]).stepReady ∧ (atPc 0x0300 [(0x300, 0xFF)]).readAnswer 0x0300 = .value 0xFF ∧
      decode [0xFF] = .refused (.unknownOpcode 0xFF) := ⟨⟨rfl, by decide⟩, by decide, by decide⟩
theorem witness_MemoryFaultKeepsRegisters :
    ∃ t, (nextCommand (hole 0x0201)).1 = .step ∧ step (hole 0x0201) = .next t ∧
      t.response = some (.step (.memoryFault 0x0201 .read)) := ⟨_, rfl, rfl, by decide⟩
theorem witness_OperandFetchFault :
    (hole 0x0201).stepReady ∧ (hole 0x0201).readAnswer 0x0200 = .value 0xA9 ∧ decode [0xA9, 0] = .instr (.ldaImm 0) [] ∧
      ((hole 0x0201).record (.read 0x0200 (.value 0xA9))).readAnswer (0x0200 + 1) = .fault :=
  ⟨⟨rfl, by decide⟩, by decide, by decide, by decide⟩
/-- L21: the second operand byte faults. -/
def l21 : State := { atPc 0x0200 [(0x200, 0xAD), (0x201, 0x34)] with regions := [⟨0x0202, 1, .unmapped⟩] }
theorem test_second_operand_fault :
    look (step l21) (fun t => (t.response, t.a, t.p, t.log)) = some (some (.step (.memoryFault 0x0202 .read)), 0x00, 0x20,
      [.read 0x0200 (.value 0xAD), .read 0x0201 (.value 0x34), .read 0x0202 .fault]) := by decide
theorem witness_OperandFetchFault_absolute :
    l21.stepReady ∧ l21.readAnswer 0x0200 = .value 0xAD ∧ decode [0xAD, 0, 0] = .instr (.ldaAbs 0) [] ∧
      (l21.record (.read 0x0200 (.value 0xAD))).readAnswer (0x0200 + 1) = .value 0x34 ∧
      ((l21.record (.read 0x0200 (.value 0xAD))).record (.read (0x0200 + 1) (.value 0x34))).readAnswer (0x0200 + 2) = .fault :=
  ⟨⟨rfl, by decide⟩, by decide, by decide, by decide, by decide⟩
theorem witness_StepRequestSequence :
    ∃ t, w.stepReady ∧ w.regions = [] ∧ w.holds w.pc [0xA9, 0x05] ∧ decode [0xA9, 0x05] = .instr (.ldaImm 0x05) [] ∧
      step w = .next t := ⟨_, w_ready, rfl, w_holds, by decide, rfl⟩
theorem witness_FlatRamStepContinues :
    w.stepReady ∧ w.regions = [] ∧ w.holds w.pc [0xA9, 0x05] ∧ decode [0xA9, 0x05] = .instr (.ldaImm 0x05) [] :=
  ⟨w_ready, rfl, w_holds, by decide⟩
theorem witness_NoHaltLatch : (nextCommand w).1 = .step := rfl
theorem witness_EveryCommandAnswers : ∀ r ∈ (hole 0x0010).regions, r.kind ≠ .device := by decide
/-- X10's memory: an unknown opcode, then SEC. -/
def x10 : State := atPc 0x0300 [(0x300, 0xFF), (0x301, 0x38)]
theorem witness_RunEndsAtHaltAddress :
    ∃ t, (Run.start x10).stuck = false ∧ (Run.start x10).terminals = [] ∧ (nextCommand x10).1 = .step ∧
      step x10 = .next t ∧ t.response = some (.step (.unknownOpcode 0xFF)) := ⟨_, rfl, rfl, rfl, rfl, by decide⟩
theorem witness_RunEndsAtHaltAddress_faults :
    (∃ t, step { w with p := 0 } = .next t ∧ t.response = some (.step (.corruptedState [.alwaysFlagClear]))) ∧
      ∃ t, step l21 = .next t ∧ t.response = some (.step (.memoryFault 0x0202 .read)) :=
  ⟨⟨_, rfl, by decide⟩, _, rfl, by decide⟩
theorem witness_RunEndsAtHaltAddress_ended : ((Run.start x10).after 1).status 0x0300 ≠ .running := by decide
/-- R315: at HaltAddress the end is normal, at another address a fault, and a later Continue changes neither. -/
theorem test_run_stays_ended :
    ((Run.start x10).after 2).status 0x0300 = .normalEnd ∧ ((Run.start x10).after 2).status 0x0301 = .faulted ∧
      ((Run.start x10).after 2).state.response = some (.step .continues) ∧
      ((Run.start x10).after 2).terminals = [⟨.unknownOpcode 0xFF, 0x0301⟩] := by decide
/-- R309: a launch carries out RESET first. -/
theorem test_launch :
    ((Run.start (launch [(0xFFFC, 0x00), (0xFFFD, 0x02)] [])).after 1).state.pc = 0x0200 ∧
      ((Run.start (launch [] [⟨0xFFFD, 1, .unmapped⟩])).after 1).status 0x0300 = .faulted := by decide
theorem witness_ImmediateLoads :
    (Instr.ldyImm 0x80, Reg.y) ∈ [(Instr.ldaImm 0x80, Reg.a), (Instr.ldxImm 0x80, Reg.x), (Instr.ldyImm 0x80, Reg.y)] := by
  decide
theorem witness_ZeroPageLoads :
    (Instr.ldxZp 0x10, Reg.x) ∈ [(Instr.ldaZp 0x10, Reg.a), (Instr.ldxZp 0x10, Reg.x), (Instr.ldyZp 0x10, Reg.y)] ∧
      w.readAnswer 0x0010 = .value 0x80 := by decide
theorem witness_AbsoluteLoads :
    (Instr.ldaAbs 0xFFFD, Reg.a) ∈
        [(Instr.ldaAbs 0xFFFD, Reg.a), (Instr.ldxAbs 0xFFFD, Reg.x), (Instr.ldyAbs 0xFFFD, Reg.y)] ∧
      w.readAnswer 0xFFFD = .value 0x02 := by decide
theorem witness_LoadFaults :
    Instr.ldaZp 0x10 ∈ [Instr.ldaZp 0x10, .ldxZp 0x10, .ldyZp 0x10, .ldaAbs 0x10, .ldxAbs 0x10, .ldyAbs 0x10] ∧
      (hole 0x0010).readAnswer 0x0010 = .fault := by decide
theorem witness_LoadFrame : ∃ t, exec (.ldaZp 0x10) w = .next t := ⟨_, rfl⟩
theorem witness_ZeroPageStores :
    (Instr.staZp 0x10, Reg.a) ∈ [(Instr.staZp 0x10, Reg.a), (Instr.stxZp 0x10, Reg.x), (Instr.styZp 0x10, Reg.y)] ∧
      w.writeAnswer 0x0010 (w.reg .a) = .completed ∧ w.kindAt 0x0010 = .ram := by decide
theorem witness_AbsoluteStores :
    (Instr.styAbs 0xFFFF, Reg.y) ∈
        [(Instr.staAbs 0xFFFF, Reg.a), (Instr.stxAbs 0xFFFF, Reg.x), (Instr.styAbs 0xFFFF, Reg.y)] ∧
      w.writeAnswer 0xFFFF (w.reg .y) = .completed := by decide
theorem witness_Stores_read_only :
    ({ w with regions := [⟨0x0010, 1, .readOnly⟩] } : State).writeAnswer 0x0010 0 = .completed ∧
      ({ w with regions := [⟨0x0010, 1, .readOnly⟩] } : State).kindAt 0x0010 = .readOnly := by decide
theorem witness_StoreFaults : (hole 0x0010).writeAnswer 0x0010 ((hole 0x0010).reg .x) = .fault := by decide
theorem witness_StoreFrame : ∃ t, exec (.stxZp 0x10) w = .next t := ⟨_, rfl⟩
theorem witness_StoreFrame_fault : ∃ t, exec (.stxZp 0x10) (hole 0x0010) = .next t := ⟨_, rfl⟩
theorem witness_Branches_taken : getFlag w.p .n = false ∧ getFlag w.p .z ≠ true := by decide
theorem witness_BranchFrame : ∃ t, exec (.bpl 0x04) w = .next t := ⟨_, rfl⟩
/-- BMI to itself with N = 1 (program P6 after its first step). -/
def p6 : State := { atPc 0x0202 [(0x202, 0x30), (0x203, 0xFF)] with p := 0xA0 }
theorem p6_holds : p6.holds 0x0202 [0x30, 0xFF] := ⟨by decide, by decide, by decide, by decide, trivial⟩
theorem witness_SelfBranchLoops :
    ∃ t, ((0x30 : Byte), Flag.n, true) ∈ [((0x10 : Byte), Flag.n, false), (0x30, Flag.n, true)] ∧ p6.stepReady ∧
      p6.holds 0x0202 [0x30, 0xFF] ∧ getFlag p6.p .n = true ∧ step p6 = .next t :=
  ⟨_, by decide, ⟨rfl, by decide⟩, p6_holds, by decide, rfl⟩
theorem witness_SelfBranchHangs :
    (∀ c ∈ ({ p6 with commands := [.step] } : State).commands, c = .step) ∧ getFlag p6.p .always = true ∧
      p6.holds 0x0202 [0x30, 0xFF] ∧ getFlag p6.p .n = true :=
  ⟨by decide, by decide, p6_holds, by decide⟩
theorem witness_FlagOps : ∃ t, exec .clv w = .next t := ⟨_, rfl⟩
theorem witness_StackPointerWriters : ∃ t, step { w with commands := [.powerOn] } = .next t := ⟨_, rfl⟩
theorem witness_AlwaysFlagOnlyBySnapshot :
    ∃ t, step { w with commands := [.snapshotLoad ⟨0, 0, 0, 0, 0, 0⟩] } = .next t ∧ getFlag w.p .always = true ∧
      getFlag t.p .always = false := ⟨_, rfl, by decide, by decide⟩
theorem witness_StepKeepsInvariant :
    ∃ t, ({ w with commands := [.snapshotRead] } : State).Inv ∧ step { w with commands := [.snapshotRead] } = .next t :=
  ⟨_, ⟨by decide, by decide, by decide⟩, rfl⟩
theorem witness_StepTakesOneCommand : ∃ t, step { w with commands := [.validate, .step] } = .next t := ⟨_, rfl⟩
theorem witness_PowerOnFresh : ({ w with commands := [.powerOn] } : State).commands = .powerOn :: [] := rfl
theorem witness_ResetLoadsVector :
    ({ w with commands := [.reset] } : State).commands = .reset :: [] ∧
      ({ w with commands := [.reset] } : State).readAnswer 0xFFFC = .value 0x00 ∧
      (State.record { w with commands := [.reset] } (.read 0xFFFC (.value 0x00))).readAnswer 0xFFFD = .value 0x02 := by decide
theorem witness_ResetVectorFault_first :
    ({ hole 0xFFFC with commands := [.reset] } : State).commands = .reset :: [] ∧
      ({ hole 0xFFFC with commands := [.reset] } : State).readAnswer 0xFFFC = .fault := by decide
theorem witness_ResetVectorFault_second :
    ({ hole 0xFFFD with commands := [.reset] } : State).readAnswer 0xFFFC = .value 0x00 ∧
      (State.record { hole 0xFFFD with commands := [.reset] } (.read 0xFFFC (.value 0x00))).readAnswer 0xFFFD = .fault := by
  decide
theorem witness_ValidateAnswers : ({ w with commands := [.validate] } : State).commands = .validate :: [] := rfl
theorem witness_SnapshotLoadVerbatim :
    ({ w with commands := [.snapshotLoad ⟨1, 2, 3, 4, 0, 0x0300⟩] } : State).commands
      = .snapshotLoad ⟨1, 2, 3, 4, 0, 0x0300⟩ :: [] := rfl
theorem witness_SnapshotRoundTrip :
    ({ w with commands := [.snapshotRead] } : State).commands = .snapshotRead :: [] ∧
      ({ State.reset with commands := [.snapshotLoad w.snapshot] } : State).commands = .snapshotLoad w.snapshot :: [] :=
  ⟨rfl, rfl⟩
/-- Differences 3, 127, -128, 128 and -129 of a target, and raw offsets at the ends and past them. -/
theorem witness_AssembledBranchReachesTarget :
    (['B', 'C', 'S'], (0xB0 : Byte)) ∈ [(['B', 'C', 'S'], (0xB0 : Byte)), (['B', 'N', 'E'], 0xD0)] ∧
      (assemble 0x0201 ['B', 'C', 'S'] (.fourDigits 0x0205)).map encode = some [0xB0, 0x03] ∧
      (assemble 0x0200 ['B', 'C', 'S'] (.fourDigits 0x0280)).map encode = some [0xB0, 0x7F] ∧
      (assemble 0x0200 ['B', 'C', 'S'] (.fourDigits 0x0181)).map encode = some [0xB0, 0x80] ∧
      assemble 0x0200 ['B', 'C', 'S'] (.fourDigits 0x0281) = none ∧
      assemble 0x0200 ['B', 'C', 'S'] (.fourDigits 0x0180) = none ∧
      (assemble 0x0200 ['B', 'C', 'S'] (.rawOffset (-128))).map encode = some [0xB0, 0x80] ∧
      assemble 0x0200 ['B', 'C', 'S'] (.rawOffset (-129)) = none ∧
      assemble 0x0200 ['B', 'C', 'S'] (.rawOffset 128) = none := by decide
theorem witness_AssembledDecodes_line :
    assembleLine 0x0200 ['L', 'D', 'X', ' ', '$', 'F', 'f'] = some (.ldxZp 0x00FF) := by decide
/-- Zero-page, absolute below 0x0100, and the rejected pairs: a store immediate, a flag op with an operand, two digits for
a branch. -/
theorem witness_AssembledDecodes :
    assemble 0x0200 ['S', 'T', 'X'] (.twoDigits 0xFF) = some (.stxZp 0x00FF) ∧
      assemble 0x0200 ['L', 'D', 'A'] (.fourDigits 0x0010) = some (.ldaAbs 0x0010) ∧
      assemble 0x0200 ['S', 'T', 'A'] (.immediate 0x10) = none ∧
      assemble 0x0200 ['C', 'L', 'C'] (.twoDigits 0x10) = none ∧
      assemble 0x0200 ['B', 'N', 'E'] (.twoDigits 0x10) = none := by decide
/-- Both directions: an accepted line with each kind of operand text, and lines that are rejected. -/
theorem witness_AssemblerLineForms :
    assembleLine 0x0200 ['L', 'D', 'X', ' ', '$', 'F', 'f'] = some (.ldxZp 0x00FF) ∧
      OperandText ['$', 'F', 'f'] (.twoDigits 0xFF) ∧ OperandText ['*', '-', '2'] (.rawOffset (-2)) ∧
      assembleLine 0x0200 ['L', 'D', 'X', ' ', '$', 'F'] = none ∧
      assembleLine 0x0200 ['L', 'D', 'X', ' ', '$', 'F', 'G'] = none ∧
      assembleLine 0x0200 ['B', 'N', 'E', ' ', '*', 'A'] = none ∧ assembleLine 0x0200 ['N', 'O', 'P'] = none :=
  ⟨by decide, .twoDigits (c := 'F') (d := 'f') (x := 15) (y := 15) (by simp [DigitOf]) (by simp [DigitOf]),
    .negativeOffset (n := 2) (.one (by simp [DigitOf])), by decide, by decide, by decide, by decide⟩

end Sys2Proof.Tests
end

section
/-! PROOFS. 00_scope: what every command leaves of the memory map and of the host's list of commands (O49). -/

namespace Sys2Proof.Machine

/-! ## Requests that only read -/

/-- What read requests made from a state come to: requests recorded and nothing else, with a value, a fault or no answer. -/
inductive ReadsOnly {α : Type} (s : State) : Result α → Prop where
  | ok (v : α) (l : List Transaction) : ReadsOnly s (.ok v { s with log := s.log ++ l })
  | fault (a : Addr) (l : List Transaction) : ReadsOnly s (.fault a .read { s with log := s.log ++ l })
  | stuck (a : Addr) : ReadsOnly s (.stuck (.noAnswer a .read))

theorem ReadsOnly.okHere {α : Type} (v : α) (s : State) : ReadsOnly s (.ok v s) := by
  simpa using ReadsOnly.ok (s := s) v []

theorem memRead_readsOnly (a : Addr) (s : State) : ReadsOnly s (memRead a s) := by
  rcases memRead_cases a s with ⟨b, -, e⟩ | ⟨-, e⟩ | ⟨-, e⟩ <;> rw [e]
  · exact .ok _ _
  · exact .fault _ _
  · exact .stuck _

/-- Read requests followed by read requests are read requests. -/
theorem ReadsOnly.andThen {α β : Type} {s : State} {r : Result α} {f : α → State → Result β} (hr : ReadsOnly s r)
    (hf : ∀ v t, ReadsOnly t (f v t)) : ReadsOnly s (r.andThen f) := by
  cases hr with
  | ok v l =>
    simp only [Result.andThen]
    have hnext := hf v { s with log := s.log ++ l }
    generalize f v { s with log := s.log ++ l } = r' at hnext
    cases hnext with
    | ok w l' => simpa using ReadsOnly.ok (s := s) w (l ++ l')
    | fault a l' => simpa using ReadsOnly.fault (s := s) a (l ++ l')
    | stuck a => exact .stuck a
  | fault a l => exact .fault a l
  | stuck a => exact .stuck a

theorem memRead16_readsOnly (a : Addr) (s : State) : ReadsOnly s (memRead16 a s) :=
  (memRead_readsOnly a s).andThen fun lo t =>
    (memRead_readsOnly (a + 1) t).andThen fun hi u => .okHere (hiLo hi lo) u

theorem resolveValue_readsOnly (m : Source) (s : State) : ReadsOnly s (resolveValue m s) := by
  cases m with
  | immediate v => exact .okHere v s
  | zeroPage ea => exact memRead_readsOnly ea s
  | absolute ea => exact memRead_readsOnly ea s

/-! ## The map and the host's list are kept -/

/-- The memory map and the host's list of commands are the same in both states. -/
def State.SameMapAndCommands (s t : State) : Prop := t.regions = s.regions ∧ t.commands = s.commands

theorem loadRegister_sameMapAndCommands {r : Reg} {m : Source} {s t : State} (h : loadRegister r m s = .next t) :
    s.SameMapAndCommands t := by
  have hread := resolveValue_readsOnly m s
  rcases loadRegister_next h with ⟨v, s', e, rfl⟩ | ⟨a, k, s', e, rfl⟩ <;> rw [e] at hread <;> cases hread
  · constructor <;> simp [loadValue]
  · exact ⟨rfl, rfl⟩

theorem storeRegister_sameMapAndCommands {r : Reg} {m : Dest} {s t : State} (h : storeRegister r m s = .next t) :
    s.SameMapAndCommands t := by
  rcases memWrite_cases m.address (s.reg r) s with ⟨-, e⟩ | ⟨-, e⟩ | ⟨-, e⟩ <;>
    rcases storeRegister_next h with ⟨s', e', rfl⟩ | ⟨a, k, s', e', rfl⟩ <;> rw [e] at e' <;> cases e'
  · exact ⟨rfl, rfl⟩
  · exact ⟨rfl, rfl⟩

theorem exec_sameMapAndCommands {i : Instr} {s t : State} (h : exec i s = .next t) : s.SameMapAndCommands t := by
  cases exec_cases i s with
  | immediateLoad r v hi he => exact loadRegister_sameMapAndCommands (he.trans h)
  | memoryLoad r m ea hi hm he => exact loadRegister_sameMapAndCommands (he.trans h)
  | store r m hi he => exact storeRegister_sameMapAndCommands (he.trans h)
  | branch f e off he => rw [branch_next (he.trans h)]; exact ⟨rfl, rfl⟩
  | flagOp f b hi he => rw [flagOp_next (he.trans h)]; exact ⟨rfl, rfl⟩

theorem stepCommand_sameMapAndCommands {s t : State} (h : stepCommand s = .next t) : s.SameMapAndCommands t := by
  cases stepCommand_cases s with
  | stuck a ho => rw [ho] at h; cases h
  | fetchFault hr ho => rw [ho] at h; cases h; exact ⟨rfl, rfl⟩
  | corrupted op hr hv ho => rw [ho] at h; cases h; exact ⟨rfl, rfl⟩
  | unknown op hr hv hs ho => rw [ho] at h; cases h; exact ⟨rfl, rfl⟩
  | operandFault op a l hr hv ho => rw [ho] at h; cases h; exact ⟨rfl, rfl⟩
  | run op i l hr hv ho => exact exec_sameMapAndCommands (s := s.inStep op l) (ho.symm.trans h)

theorem resetCommand_sameMapAndCommands {s t : State} (h : resetCommand s = .next t) : s.SameMapAndCommands t := by
  have hread := memRead16_readsOnly 0xFFFC s
  unfold resetCommand at h
  generalize memRead16 0xFFFC s = r at h hread
  cases hread with
  | ok target l => cases h; exact ⟨rfl, rfl⟩
  | fault a l => cases h; exact ⟨rfl, rfl⟩
  | stuck a => cases h

/-- No command touches the map or the list it was taken from. -/
theorem runCommand_sameMapAndCommands {c : Command} {s t : State} (h : runCommand c s = .next t) :
    s.SameMapAndCommands t := by
  cases c with
  | step => exact stepCommand_sameMapAndCommands h
  | reset => exact resetCommand_sameMapAndCommands h
  | powerOn => cases h; exact ⟨rfl, rfl⟩
  | validate => cases h; exact ⟨rfl, rfl⟩
  | snapshotLoad r => cases h; exact ⟨rfl, rfl⟩
  | snapshotRead => cases h; exact ⟨rfl, rfl⟩

/-- Settles O49: the next command is taken off the list first, and no command touches what is left of it, or the map. -/
theorem stepTakesOneCommand : Obligations.StepTakesOneCommand := by
  intro s t h
  have hkept := runCommand_sameMapAndCommands (c := (nextCommand s).1) h
  rwa [nextCommand_snd] at hkept

end Sys2Proof.Machine
end

section
/-! PROOFS. 10_state: the status register (O6, O8, O9, O10), the flags that do nothing (O12), StackPointer (O45), the
Always flag (O46) and the invariant of the whole machine (O47). -/

namespace Sys2Proof.Machine

/-! ## The status byte, bit by bit -/

/-- Every bit of P is a flag. -/
theorem flagBit_surjective (k : Fin 8) : ∃ f, flagBit f = k := by
  fin_cases k
  exacts [⟨.c, rfl⟩, ⟨.z, rfl⟩, ⟨.i, rfl⟩, ⟨.d, rfl⟩, ⟨.b, rfl⟩, ⟨.always, rfl⟩, ⟨.v, rfl⟩, ⟨.n, rfl⟩]

/-- The law of reading a flag after writing one, for the bits by number: every bit is a flag, and no two are the same. -/
theorem getBit_setBit (p : Byte) (k j : Fin 8) (b : Bool) :
    getBit (setBit p k b) j = if j = k then b else getBit p j := by
  obtain ⟨f, rfl⟩ := flagBit_surjective k
  obtain ⟨g, rfl⟩ := flagBit_surjective j
  have hsame : flagBit g = flagBit f ↔ g = f := ⟨flagBit_injective, congrArg flagBit⟩
  simp only [hsame]
  exact getFlag_setFlag p f g b

/-- The flags from bit 7 down, the order of the status string (R36, R41). -/
def flagsFromTop : List Flag := [.n, .v, .always, .b, .d, .i, .z, .c]

theorem statusString_eq_map (p : Byte) : statusString p = flagsFromTop.map (statusChar p) := rfl

/-- The k-th flag from the top is bit 7 - k. -/
theorem flagBit_of_flagsFromTop {k : Nat} {f : Flag} (h : flagsFromTop[k]? = some f) : (flagBit f).val = 7 - k := by
  obtain ⟨hk, rfl⟩ := List.getElem?_eq_some_iff.1 h
  have hall : ∀ k : Fin 8, (flagBit flagsFromTop[k.val]).val = 7 - k.val := by decide
  exact hall ⟨k, hk⟩

/-- Settles O8: both lists are the flags from the top, mapped to their characters and to their letters. -/
theorem statusStringRule : Obligations.StatusStringRule := by
  intro p
  refine ⟨rfl, fun k c hc => ?_⟩
  have hlabels : ['N', 'V', '1', 'B', 'D', 'I', 'Z', 'C'] = flagsFromTop.map flagLabel := rfl
  rw [hlabels, List.getElem?_map, Option.map_eq_some_iff] at hc
  obtain ⟨f, hf, rfl⟩ := hc
  rw [statusString_eq_map, List.getElem?_map, hf, Option.map_some, statusChar, getFlag, getBit,
    flagBit_of_flagsFromTop hf]

/-! ## What an instruction leaves in StackPointer, the status byte and memory -/

/-- The instruction is a load. -/
def IsLoad (i : Instr) : Prop :=
  (∃ v, i = .ldaImm v ∨ i = .ldxImm v ∨ i = .ldyImm v) ∨
  (∃ ea, i = .ldaZp ea ∨ i = .ldxZp ea ∨ i = .ldyZp ea ∨ i = .ldaAbs ea ∨ i = .ldxAbs ea ∨ i = .ldyAbs ea)

/-- The instruction is a flag op on this flag; the one for V writes a 1 (R235). -/
def WritesFlag (i : Instr) (f : Flag) (b : Bool) : Prop :=
  (f = .v ∧ b = true ∧ i = .clv) ∨ (f = .d ∧ (i = .sed ∨ i = .cld)) ∨ (f = .i ∧ (i = .sei ∨ i = .cli)) ∨
  (f = .c ∧ (i = .sec ∨ i = .clc))

/-- Which status bytes an instruction can leave where `p` stood before. -/
inductive StatusAfter (i : Instr) (p : Byte) : Byte → Prop where
  | kept : StatusAfter i p p
  | flagOp (f : Flag) (b : Bool) (hi : WritesFlag i f b) : StatusAfter i p (setFlag p f b)
  | load (v : Byte) (hi : IsLoad i) : StatusAfter i p (nz v p)

/-- SP is kept, the status byte is one the instruction can leave, and at most one byte of memory was written. -/
def InstrEffect (i : Instr) (s t : State) : Prop :=
  t.sp = s.sp ∧ StatusAfter i s.p t.p ∧ (t.mem = s.mem ∨ ∃ (a : Addr) (v : Byte), t.mem = s.mem.write a.toNat v)

theorem loadRegister_effect {i : Instr} (hi : IsLoad i) {r : Reg} {m : Source} {s t : State}
    (h : loadRegister r m s = .next t) : InstrEffect i s t := by
  have hread := resolveValue_readsOnly m s
  rcases loadRegister_next h with ⟨v, s', e, rfl⟩ | ⟨a, k, s', e, rfl⟩ <;> rw [e] at hread <;> cases hread
  · exact ⟨by simp [loadValue], .load v hi, .inl (by simp [loadValue])⟩
  · exact ⟨rfl, .kept, .inl rfl⟩

/-- A store that answers leaves SP and P, and the contents are those after its one write, completed or faulted. -/
theorem storeRegister_frame {r : Reg} {m : Dest} {s t : State} (h : storeRegister r m s = .next t) :
    t.sp = s.sp ∧ t.p = s.p ∧ t.mem = s.memAfterWrite m.address (s.reg r) := by
  rcases memWrite_cases m.address (s.reg r) s with ⟨-, e⟩ | ⟨-, e⟩ | ⟨-, e⟩ <;>
    rcases storeRegister_next h with ⟨s', e', rfl⟩ | ⟨a, k, s', e', rfl⟩ <;> rw [e] at e' <;> cases e'
  · exact ⟨rfl, rfl, rfl⟩
  · exact ⟨rfl, rfl, rfl⟩

theorem storeRegister_effect {i : Instr} {r : Reg} {m : Dest} {s t : State} (h : storeRegister r m s = .next t) :
    InstrEffect i s t := by
  obtain ⟨hsp, hp, hm⟩ := storeRegister_frame h
  refine ⟨hsp, hp ▸ .kept, ?_⟩
  rw [hm]
  exact (s.memAfterWrite_cases m.address (s.reg r)).imp_right fun e => ⟨_, _, e⟩

theorem exec_effect {i : Instr} {s t : State} (h : exec i s = .next t) : InstrEffect i s t := by
  cases exec_cases i s with
  | immediateLoad r v hi he => exact loadRegister_effect (.inl ⟨v, hi⟩) (he.trans h)
  | memoryLoad r m ea hi hm he => exact loadRegister_effect (.inr ⟨ea, hi⟩) (he.trans h)
  | store r m hi he => exact storeRegister_effect (he.trans h)
  | branch f e off he => rw [branch_next (he.trans h)]; exact ⟨rfl, .kept, .inl rfl⟩
  | flagOp f b hi he => rw [flagOp_next (he.trans h)]; exact ⟨rfl, .flagOp f b hi, .inl rfl⟩

/-- Settles O6: bit by bit as the flags, and a status byte an instruction leaves is kept or one or two `setFlag`s away. -/
theorem setFlagOneBit : Obligations.SetFlagOneBit := by
  refine ⟨getBit_setBit, fun p k j => getBit_setBit p k j false, fun i s t h => ?_⟩
  obtain ⟨-, hp, -⟩ := exec_effect h
  generalize t.p = q at hp
  cases hp with
  | kept => exact .inl rfl
  | flagOp f b hi => exact .inr (.inl ⟨f, b, rfl⟩)
  | load v hi => exact .inr (.inr ⟨_, _, rfl⟩)

/-! ## Which flag an instruction can change -/

/-- A flag that came out different was written by a flag op on it, or is N or Z after a load (R40). -/
theorem StatusAfter.writer {i : Instr} {p q : Byte} {f : Flag} (h : StatusAfter i p q)
    (hne : getFlag q f ≠ getFlag p f) :
    WritesFlag i f (getFlag q f) ∨ ((f = .n ∨ f = .z) ∧ IsLoad i) := by
  cases h with
  | kept => exact absurd rfl hne
  | flagOp g b hi =>
    have hfg : f = g := by_contra fun hfg => hne (getFlag_setFlag_ne hfg p b)
    subst hfg
    rw [getFlag_setFlag_same]
    exact .inl hi
  | load v hi =>
    have hnz : f = .n ∨ f = .z := by
      by_contra hnz
      obtain ⟨hn, hz⟩ := not_or.1 hnz
      exact hne (getFlag_nz_ne hn hz v p)
    exact .inr ⟨hnz, hi⟩

/-- No instruction changes the Always flag. -/
theorem StatusAfter.always {i : Instr} {p q : Byte} (h : StatusAfter i p q) :
    getFlag q .always = getFlag p .always := by
  by_contra hne
  simpa [WritesFlag] using h.writer hne

/-- No instruction makes V 0: the only one that writes it, CLV, writes a 1. -/
theorem StatusAfter.overflow {i : Instr} {p q : Byte} (h : StatusAfter i p q) (hv : getFlag p .v = true) :
    getFlag q .v = true := by
  by_contra hq
  have hwriter := h.writer (f := .v) (by rwa [hv])
  simp [WritesFlag, hq] at hwriter

/-- Settles O9: the writers of the flag that changed, listed one by one. -/
theorem flagWriters : Obligations.FlagWriters := by
  intro i s t f h hne
  obtain ⟨-, hp, -⟩ := exec_effect h
  rcases hp.writer hne with (⟨hf, -, hi⟩ | hd | hint | hc) | hload
  · exact .inl ⟨hf, hi⟩
  · exact .inr (.inl hd)
  · exact .inr (.inr (.inl hint))
  · exact .inr (.inr (.inr (.inl hc)))
  · exact .inr (.inr (.inr (.inr hload)))

/-! ## What a command leaves in StackPointer, the status byte and memory -/

/-- SP, P and memory are the same in both states. -/
def State.SameSpPMem (s t : State) : Prop := t.sp = s.sp ∧ t.p = s.p ∧ t.mem = s.mem

/-- What a command can do to SP, P and memory: what one instruction does, nothing, or the load of six fields. -/
inductive CommandEffect (c : Command) (s t : State) : Prop where
  | executed (i : Instr) (hc : c = .step) (he : InstrEffect i s t)
  | kept (hs : s.SameSpPMem t)
  | loaded (r : Snapshot) (hc : (c = .powerOn ∧ r = freshFields) ∨ c = .snapshotLoad r)
      (hs : (s.load r).SameSpPMem t)

theorem stepCommand_effect {s t : State} (h : stepCommand s = .next t) : CommandEffect .step s t := by
  cases stepCommand_cases s with
  | stuck a ho => rw [ho] at h; cases h
  | fetchFault hr ho => rw [ho] at h; cases h; exact .kept ⟨rfl, rfl, rfl⟩
  | corrupted op hr hv ho => rw [ho] at h; cases h; exact .kept ⟨rfl, rfl, rfl⟩
  | unknown op hr hv hs ho => rw [ho] at h; cases h; exact .kept ⟨rfl, rfl, rfl⟩
  | operandFault op a l hr hv ho => rw [ho] at h; cases h; exact .kept ⟨rfl, rfl, rfl⟩
  | run op i l hr hv ho => exact .executed i rfl (exec_effect (s := s.inStep op l) (ho.symm.trans h))

theorem resetCommand_sameSpPMem {s t : State} (h : resetCommand s = .next t) : s.SameSpPMem t := by
  have hread := memRead16_readsOnly 0xFFFC s
  unfold resetCommand at h
  generalize memRead16 0xFFFC s = r at h hread
  cases hread with
  | ok target l => cases h; exact ⟨rfl, rfl, rfl⟩
  | fault a l => cases h; exact ⟨rfl, rfl, rfl⟩
  | stuck a => cases h

theorem runCommand_effect {c : Command} {s t : State} (h : runCommand c s = .next t) : CommandEffect c s t := by
  cases c with
  | step => exact stepCommand_effect h
  | reset => exact .kept (resetCommand_sameSpPMem h)
  | powerOn => cases h; exact .loaded freshFields (.inl ⟨rfl, rfl⟩) ⟨rfl, rfl, rfl⟩
  | validate => cases h; exact .kept ⟨rfl, rfl, rfl⟩
  | snapshotLoad r => cases h; exact .loaded r (.inr rfl) ⟨rfl, rfl, rfl⟩
  | snapshotRead => cases h; exact .kept ⟨rfl, rfl, rfl⟩

/-- Taking the command off the host's list touches none of SP, P and memory, so a step does what its command does. -/
theorem step_effect {s t : State} (h : step s = .next t) : CommandEffect (nextCommand s).1 s t := by
  have heffect := runCommand_effect (c := (nextCommand s).1) h
  rw [nextCommand_snd] at heffect
  cases heffect with
  | executed i hc he => exact .executed i hc he
  | kept hs => exact .kept hs
  | loaded r hc hs => exact .loaded r hc hs

/-- Settles O10: a STEP loads no fields, and the instruction it executes, if any, never makes V 0. -/
theorem overflowNeverCleared : Obligations.OverflowNeverCleared := by
  intro s t hstep hv h
  cases step_effect h with
  | executed i hc he =>
    obtain ⟨-, hp, -⟩ := he
    exact hp.overflow hv
  | kept hs =>
    obtain ⟨-, hp, -⟩ := hs
    rwa [hp]
  | loaded r hc hs => simp [hstep] at hc

/-- Settles O45: SP is kept by every instruction, and of the commands only the two that load six fields write it. -/
theorem stackPointerWriters : Obligations.StackPointerWriters := by
  intro s t h
  cases step_effect h with
  | executed i hc he =>
    obtain ⟨hsp, -, -⟩ := he
    exact .inl hsp
  | kept hs =>
    obtain ⟨hsp, -, -⟩ := hs
    exact .inl hsp
  | loaded r hc hs =>
    obtain ⟨hsp, -, -⟩ := hs
    rcases hc with ⟨hc, rfl⟩ | hc
    · exact .inr (.inl ⟨hc, hsp⟩)
    · exact .inr (.inr ⟨r, hc, hsp⟩)

/-! ## The Always flag and the invariant -/

theorem Command.keepsAlways_eq_false_iff {c : Command} :
    c.keepsAlways = false ↔ ∃ r, c = .snapshotLoad r ∧ getFlag r.p .always = false := by
  cases c <;> simp [Command.keepsAlways]

/-- A command that loads no cleared Always flag leaves a set one set. -/
theorem CommandEffect.always {c : Command} {s t : State} (h : CommandEffect c s t) (hc : c.keepsAlways = true)
    (hs : getFlag s.p .always = true) : getFlag t.p .always = true := by
  cases h with
  | executed i _ he =>
    obtain ⟨-, hp, -⟩ := he
    rw [hp.always, hs]
  | kept hk =>
    obtain ⟨-, hp, -⟩ := hk
    rw [hp, hs]
  | loaded r hr hk =>
    obtain ⟨-, hp, -⟩ := hk
    rw [hp]
    rcases hr with ⟨-, rfl⟩ | rfl
    · exact (by decide : getFlag freshFields.p .always = true)
    · exact hc

/-- Every command keeps memory canonical: it leaves the contents or writes the one byte of a store. -/
theorem CommandEffect.wf {c : Command} {s t : State} (h : CommandEffect c s t) (hs : s.mem.wf) : t.mem.wf := by
  cases h with
  | executed i _ he =>
    obtain ⟨-, -, hm | ⟨a, v, hm⟩⟩ := he <;> rw [hm]
    · exact hs
    · exact Memory.wf_write hs a.isLt v
  | kept hk =>
    obtain ⟨-, -, hm⟩ := hk
    rwa [hm]
  | loaded r _ hk =>
    obtain ⟨-, -, hm⟩ := hk
    rwa [hm]

/-- What holds of every command still to come holds of the next one, listed or the STEP the host issues on its own. -/
theorem nextCommand_keepsAlways {s : State} (h : ∀ c ∈ s.commands, c.keepsAlways = true) :
    (nextCommand s).1.keepsAlways = true := by
  unfold nextCommand
  split
  · rfl
  · rename_i c rest hcs
    exact h c (by simp [hcs])

/-- Settles O46: a command that took the flag from 1 to 0 loads a P with bit 5 = 0. -/
theorem alwaysFlagOnlyBySnapshot : Obligations.AlwaysFlagOnlyBySnapshot := by
  intro s t h hs ht
  refine Command.keepsAlways_eq_false_iff.1 (Bool.eq_false_iff.2 fun hc => ?_)
  exact absurd ((step_effect h).always hc hs) (by simp [ht])

/-- Settles O47: the next command keeps memory canonical and, being one of those that clear no Always flag, that flag
too, and the commands left were all on the list before. -/
theorem stepKeepsInvariant : Obligations.StepKeepsInvariant := by
  intro s t hinv h
  obtain ⟨hwf, halways, hcommands⟩ := hinv
  obtain ⟨-, hrest⟩ := stepTakesOneCommand s t h
  refine ⟨(step_effect h).wf hwf, (step_effect h).always (nextCommand_keepsAlways hcommands) halways, fun c hc => ?_⟩
  rw [hrest] at hc
  exact hcommands c (List.mem_of_mem_tail hc)

/-! ## The status byte replaced before an instruction -/

/-- Two status bytes agree on every flag but one. -/
def AgreeExcept (f : Flag) (p q : Byte) : Prop := ∀ g, g ≠ f → getFlag q g = getFlag p g

theorem agreeExcept_setFlag (f : Flag) (p : Byte) (b : Bool) : AgreeExcept f p (setFlag p f b) :=
  fun _ hg => getFlag_setFlag_ne hg p b

/-- Writing the same value to the same flag of both keeps the agreement. -/
theorem AgreeExcept.setFlag {f : Flag} {p q : Byte} (h : AgreeExcept f p q) (k : Flag) (b : Bool) :
    AgreeExcept f (setFlag p k b) (setFlag q k b) := by
  intro g hg
  rw [getFlag_setFlag, getFlag_setFlag, h g hg]

theorem AgreeExcept.nz {f : Flag} {p q : Byte} (h : AgreeExcept f p q) (v : Byte) : AgreeExcept f (nz v p) (nz v q) :=
  (h.setFlag .n _).setFlag .z _

/-- The status byte of the state a result carries replaced. -/
def Result.setP {α : Type} (q : Byte) : Result α → Result α
  | .ok v s => .ok v (s.setP q)
  | .fault a k s => .fault a k (s.setP q)
  | .stuck f => .stuck f

/-- The memory's answer to a read does not depend on P. -/
theorem memRead_setP (a : Addr) (s : State) (q : Byte) : memRead a (s.setP q) = (memRead a s).setP q := by
  have hanswer : (s.setP q).readAnswer a = s.readAnswer a := rfl
  simp only [memRead, hanswer]
  cases s.readAnswer a <;> rfl

/-- Neither the memory's answer to a write nor what it stores depends on P. -/
theorem memWrite_setP (a : Addr) (v : Byte) (s : State) (q : Byte) :
    memWrite a v (s.setP q) = (memWrite a v s).setP q := by
  have hanswer : (s.setP q).writeAnswer a v = s.writeAnswer a v := rfl
  simp only [memWrite, hanswer]
  cases s.writeAnswer a v <;> rfl

theorem resolveValue_setP (m : Source) (s : State) (q : Byte) :
    resolveValue m (s.setP q) = (resolveValue m s).setP q := by
  cases m with
  | immediate v => rfl
  | zeroPage ea => exact memRead_setP ea s q
  | absolute ea => exact memRead_setP ea s q

/-- From the state with status byte `q` the outcome is the same next state but for its own status byte, which differs
from the other one in no flag but `f`. -/
def NextExcept (f : Flag) (q : Byte) (m : State → Host.Outcome State Fault Refusal) (s t : State) : Prop :=
  ∃ q', m (s.setP q) = .next (t.setP q') ∧ AgreeExcept f t.p q'

theorem loadRegister_nextExcept {f : Flag} {q : Byte} {r : Reg} {m : Source} {s t : State}
    (hq : AgreeExcept f s.p q) (h : loadRegister r m s = .next t) : NextExcept f q (loadRegister r m) s t := by
  have hread := resolveValue_readsOnly m s
  rcases loadRegister_next h with ⟨v, s', e, rfl⟩ | ⟨a, k, s', e, rfl⟩ <;> rw [e] at hread
  · refine ⟨nz v q, ?_, ?_⟩
    · rw [loadRegister, resolveValue_setP, e]
      cases r <;> rfl
    · cases hread
      exact hq.nz v
  · refine ⟨q, by rw [loadRegister, resolveValue_setP, e]; rfl, ?_⟩
    cases hread
    exact hq

theorem storeRegister_nextExcept {f : Flag} {q : Byte} {r : Reg} {m : Dest} {s t : State}
    (hq : AgreeExcept f s.p q) (h : storeRegister r m s = .next t) : NextExcept f q (storeRegister r m) s t := by
  obtain ⟨-, hp, -⟩ := storeRegister_frame h
  refine ⟨q, ?_, hp ▸ hq⟩
  rcases storeRegister_next h with ⟨s', e, rfl⟩ | ⟨a, k, s', e, rfl⟩ <;>
    rw [storeRegister, State.reg_setP, memWrite_setP, e] <;> rfl

/-- A branch on another flag goes the same way. -/
theorem branch_nextExcept {f g : Flag} {q : Byte} {e : Bool} {off : Addr} {s t : State} (hg : g ≠ f)
    (hq : AgreeExcept f s.p q) (h : branch g e off s = .next t) : NextExcept f q (branch g e off) s t := by
  rw [branch_next h]
  refine ⟨q, ?_, hq⟩
  rw [branch, State.setP_p, hq g hg]
  rfl

theorem flagOp_nextExcept {f g : Flag} {q : Byte} {b : Bool} {s t : State} (hq : AgreeExcept f s.p q)
    (h : flagOp g b s = .next t) : NextExcept f q (flagOp g b) s t := by
  rw [flagOp_next h]
  exact ⟨setFlag q g b, rfl, hq.setFlag g b⟩

/-- The shared meanings, as functions of the state; a branch tests N, V, C or Z (R202-R210). -/
inductive SharedMeaning : (State → Host.Outcome State Fault Refusal) → Prop where
  | load (r : Reg) (m : Source) : SharedMeaning (loadRegister r m)
  | store (r : Reg) (m : Dest) : SharedMeaning (storeRegister r m)
  | branch (f : Flag) (e : Bool) (off : Addr) (hf : f ∈ [Flag.n, .v, .c, .z]) : SharedMeaning (branch f e off)
  | flagOp (f : Flag) (b : Bool) : SharedMeaning (flagOp f b)

theorem exec_sharedMeaning (i : Instr) : SharedMeaning (exec i) := by
  cases i with
  | ldaImm v | ldxImm v | ldyImm v => exact .load _ (.immediate v)
  | ldaZp ea | ldxZp ea | ldyZp ea => exact .load _ (.zeroPage ea)
  | ldaAbs ea | ldxAbs ea | ldyAbs ea => exact .load _ (.absolute ea)
  | staZp ea | stxZp ea | styZp ea => exact .store _ (.zeroPage ea)
  | staAbs ea | stxAbs ea | styAbs ea => exact .store _ (.absolute ea)
  | bpl _ | bmi _ | bvc _ | bvs _ | bcc _ | bcs _ | bne _ | beq _ => exact .branch _ _ _ (by decide)
  | clc | sec | cli | sei | clv | cld | sed => exact .flagOp _ _

/-- No instruction's outcome depends on D, I or B but in that flag itself: no branch tests it. -/
theorem exec_nextExcept {i : Instr} {f : Flag} {q : Byte} {s t : State} (hf : f ∈ [Flag.d, .i, .b])
    (hq : AgreeExcept f s.p q) (h : exec i s = .next t) : NextExcept f q (exec i) s t := by
  have hmeaning := exec_sharedMeaning i
  generalize exec i = m at h hmeaning ⊢
  cases hmeaning with
  | load r m => exact loadRegister_nextExcept hq h
  | store r m => exact storeRegister_nextExcept hq h
  | branch g e off hg =>
    have hne : g ≠ f := by rintro rfl; fin_cases hf <;> simp at hg
    exact branch_nextExcept hne hq h
  | flagOp g b => exact flagOp_nextExcept hq h

/-- Settles O12: the two next states differ in the status byte only, and there in no flag but the one that was set. -/
theorem decimalInterruptBreakInert : Obligations.DecimalInterruptBreakInert := by
  intro i s t f b hf h
  obtain ⟨q, hnext, hflags⟩ := exec_nextExcept hf (agreeExcept_setFlag f s.p b) h
  exact ⟨t.setP q, hnext, ⟨rfl, rfl, rfl, rfl⟩, rfl, rfl, rfl, rfl, hflags⟩

end Sys2Proof.Machine
end

section
/-! PROOFS. 20_memory: the canonical form (O13), what the requests come to (O14, O15, O16), and which requests a STEP makes
and what its opcode fetch sees (O17, O25). -/

namespace Sys2Proof.Machine

/-! ## The canonical form -/

/-- An address is listed with a byte exactly if the cell is in the list, since no address is listed twice. -/
theorem Memory.lookup_eq_some_iff {m : Memory} (h : m.Pairwise fun c d => c.1 < d.1) {a : Nat} {v : Byte} :
    m.lookup a = some v ↔ (a, v) ∈ m := by
  induction m with
  | nil => simp [Memory.lookup]
  | cons c m ih =>
    obtain ⟨k, w⟩ := c
    obtain ⟨hk, hm⟩ := List.pairwise_cons.1 h
    by_cases heq : k = a
    · subst heq
      have hnot : (k, v) ∉ m := fun hv => lt_irrefl k (hk _ hv)
      simp [Memory.lookup, hnot, eq_comm]
    · simp [Memory.lookup, heq, Ne.symm heq, ih hm]

/-- Settles O13: both lists have the same cells, and a list with rising addresses is determined by its cells. -/
theorem canonicalMemoriesEqual : Obligations.CanonicalMemoriesEqual := by
  rintro m₁ m₂ ⟨hp₁, -⟩ ⟨hp₂, -⟩ hlook
  have : Std.Asymm fun c d : Host.Cell => c.1 < d.1 := ⟨fun _ _ => lt_asymm⟩
  have : Std.Irrefl fun c d : Host.Cell => c.1 < d.1 := ⟨fun _ => lt_irrefl _⟩
  refine hp₁.eq_of_mem_iff hp₂ fun ⟨a, v⟩ => ?_
  rw [← Memory.lookup_eq_some_iff hp₁, ← Memory.lookup_eq_some_iff hp₂, hlook]

/-! ## Requests -/

theorem State.readable_iff {s : State} {a : Addr} : s.readable a = true ↔ s.kindAt a = .ram ∨ s.kindAt a = .readOnly := by
  simp [State.readable]

theorem State.readAnswer_of_readable {s : State} {a : Addr} (h : s.readable a = true) :
    s.readAnswer a = .value (s.byteAt a) :=
  State.readAnswer_plain (State.readable_iff.1 h)

/-- RAM answers with the byte that stands there. -/
theorem State.readAnswer_of_ram {s : State} {a : Addr} {b : Byte} (hk : s.kindAt a = .ram) (hb : s.byteAt a = b) :
    s.readAnswer a = .value b := by
  rw [State.readAnswer_plain (.inl hk), hb]

/-- What answers with the byte it holds depends on the memory map only. -/
theorem State.readable_congr {s t : State} (h : t.regions = s.regions) (a : Addr) : t.readable a = s.readable a := by
  rw [State.readable, State.readable, State.kindAt_congr h]

@[simp] theorem State.byteAt_poke_same (s : State) (a : Addr) (v : Byte) : (s.poke a v).byteAt a = v := by
  rw [State.poke, State.byteAt_setMem_write, if_pos rfl]

theorem State.byteAt_poke_ne (s : State) {a b : Addr} (h : b ≠ a) (v : Byte) : (s.poke a v).byteAt b = s.byteAt b := by
  rw [State.poke, State.byteAt_setMem_write, if_neg h]

/-- A completed write to RAM stores the byte and records the request. -/
theorem memWrite_ram {a : Addr} {s : State} (h : s.kindAt a = .ram) (v : Byte) :
    memWrite a v s = .ok () ((s.poke a v).record (.write a v .completed)) := by
  have hw : s.writeAnswer a v = .completed := by simp [State.writeAnswer, h]
  rw [memWrite_completed hw, State.memAfterWrite, hw, h]
  rfl

/-- A write to a read-only address records the request and does nothing else (R62). -/
theorem memWrite_readOnly {a : Addr} {s : State} (h : s.kindAt a = .readOnly) (v : Byte) :
    memWrite a v s = .ok () (s.record (.write a v .completed)) := by
  have hw : s.writeAnswer a v = .completed := by simp [State.writeAnswer, h]
  rw [memWrite_completed hw, State.memAfterWrite, hw, h]
  rfl

/-- Settles O16: the case of a read-only address among what a write request comes to. -/
theorem readOnlyWriteIgnored : Obligations.ReadOnlyWriteIgnored := fun _ v _ h => memWrite_readOnly h v

/-- Settles O15: the one byte is replaced, and plain memory answers with what it holds whatever was requested. -/
theorem ramReadsLastWrite : Obligations.RamReadsLastWrite := by
  intro a v s hram
  refine ⟨_, memWrite_ram hram v, State.readAnswer_of_ram hram (s.byteAt_poke_same a v), fun b hb => ?_⟩
  refine ⟨s.byteAt_poke_ne hb v, fun hplain => ?_⟩
  rw [State.readAnswer_of_readable hplain, ← s.byteAt_poke_ne hb v]
  exact State.readAnswer_of_readable (s := (s.poke a v).record _) hplain

theorem memRead16_value {a : Addr} {s : State} {lo hi : Byte} (hlo : s.readAnswer a = .value lo)
    (hhi : (s.record (.read a (.value lo))).readAnswer (a + 1) = .value hi) :
    memRead16 a s =
      .ok (hiLo hi lo) ((s.record (.read a (.value lo))).record (.read (a + 1) (.value hi))) := by
  simp only [memRead16, memRead_value hlo, memRead_value hhi, Result.andThen]

theorem memRead16_first_fault {a : Addr} {s : State} (h : s.readAnswer a = .fault) :
    memRead16 a s = .fault a .read (s.record (.read a .fault)) := by
  simp only [memRead16, memRead_fault h, Result.andThen]

theorem memRead16_second_fault {a : Addr} {s : State} {lo : Byte} (hlo : s.readAnswer a = .value lo)
    (hhi : (s.record (.read a (.value lo))).readAnswer (a + 1) = .fault) :
    memRead16 a s = .fault (a + 1) .read ((s.record (.read a (.value lo))).record (.read (a + 1) .fault)) := by
  simp only [memRead16, memRead_value hlo, memRead_fault hhi, Result.andThen]

/-- Two requests recorded one after the other are both appended. -/
theorem State.record_record (s : State) (q r : Transaction) :
    (s.record q).record r = { s with log := s.log ++ [q, r] } := by
  simp [State.record]

/-- Settles O14: one case of the two reads each. -/
theorem read16LowThenHigh : Obligations.Read16LowThenHigh := by
  intro a s
  refine ⟨fun lo hi hlo hhi => ?_, memRead16_first_fault, fun lo hlo hhi => ?_⟩
  · exact ⟨_, _, memRead16_value hlo hhi, hiLo_toNat hi lo, s.record_record _ _⟩
  · rw [memRead16_second_fault hlo hhi, State.record_record]

/-! ## A store, then the next fetch -/

/-- A validation finds nothing exactly if the Always flag is 1: a register of 8 or 16 bits is always in range (R307). -/
theorem validateState_eq_nil_iff {s : State} : validateState s = [] ↔ getFlag s.p .always = true := by
  have hbyte (b : Byte) : ¬ 255 < b.toNat := by have := b.isLt; omega
  have hpc : ¬ 65535 < s.pc.toNat := by have := s.pc.isLt; omega
  simp [validateState, hbyte, hpc]

theorem loadRegister_trace {r : Reg} {m : Source} {s t : State} (h : loadRegister r m s = .next t) :
    t.trace = s.trace := by
  have hread := resolveValue_readsOnly m s
  rcases loadRegister_next h with ⟨v, s', e, rfl⟩ | ⟨a, k, s', e, rfl⟩ <;> rw [e] at hread <;> cases hread
  · simp [loadValue]
  · rfl

theorem storeRegister_trace {r : Reg} {m : Dest} {s t : State} (h : storeRegister r m s = .next t) :
    t.trace = s.trace := by
  rcases memWrite_cases m.address (s.reg r) s with ⟨-, e⟩ | ⟨-, e⟩ | ⟨-, e⟩ <;>
    rcases storeRegister_next h with ⟨s', e', rfl⟩ | ⟨a, k, s', e', rfl⟩ <;> rw [e] at e' <;> cases e'
  · rfl
  · rfl

/-- An instruction puts out no trace record of its own. -/
theorem exec_trace {i : Instr} {s t : State} (h : exec i s = .next t) : t.trace = s.trace := by
  cases exec_cases i s with
  | immediateLoad r v hi he => exact loadRegister_trace (he.trans h)
  | memoryLoad r m ea hi hm he => exact loadRegister_trace (he.trans h)
  | store r m hi he => exact storeRegister_trace (he.trans h)
  | branch f e off he => rw [branch_next (he.trans h)]; rfl
  | flagOp f b hi he => rw [flagOp_next (he.trans h)]; rfl

/-- A STEP whose opcode fetch is answered with a value puts out the record of that opcode, whatever its outcome (R285). -/
theorem stepCommand_trace {s t : State} {op : Byte} (hop : s.readAnswer s.pc = .value op)
    (h : stepCommand s = .next t) : t.trace = some (traceRecord s op) := by
  cases stepCommand_cases s with
  | stuck a ho => rw [ho] at h; cases h
  | fetchFault hr ho => rw [hop] at hr; cases hr
  | corrupted op' hr hv ho => rw [hop] at hr; cases hr; rw [ho] at h; cases h; rfl
  | unknown op' hr hv hs ho => rw [hop] at hr; cases hr; rw [ho] at h; cases h; rfl
  | operandFault op' a l hr hv ho => rw [hop] at hr; cases hr; rw [ho] at h; cases h; rfl
  | run op' i l hr hv ho => rw [hop] at hr; cases hr; exact exec_trace (ho.symm.trans h)

theorem step_trace {s t : State} {op : Byte} (hnext : (nextCommand s).1 = .step) (hop : s.readAnswer s.pc = .value op)
    (h : step s = .next t) : t.trace = some (traceRecord s op) := by
  rw [step_eq_stepCommand hnext] at h
  exact stepCommand_trace (s := { s with commands := s.commands.tail }) hop h

/-- A store into RAM, completely: the byte written, the request recorded, PC moved on and the outcome Continue. -/
theorem storeRegister_ram {m : Dest} {s : State} (h : s.kindAt m.address = .ram) (r : Reg) :
    storeRegister r m s = .next (raise .continues
      (((s.poke m.address (s.reg r)).record (.write m.address (s.reg r) .completed)).setPc (s.pc + m.length))) := by
  rw [storeRegister, memWrite_ram h]
  rfl

/-- A STEP is next in both states where the host's list is the same. -/
theorem nextCommand_fst_congr {s t : State} (h : t.commands = s.commands) :
    (nextCommand t).1 = (nextCommand s).1 := by
  simp only [nextCommand, h]
  cases s.commands <;> rfl

/-- A store into RAM just past itself, then a STEP: its opcode fetch is answered with the byte stored (R75). -/
theorem storeRegister_seen_by_step {r : Reg} {m : Dest} {s t u : State} (hm : s.pc + m.length = m.address)
    (hnext : (nextCommand s).1 = .step) (hram : s.kindAt m.address = .ram) (hstore : storeRegister r m s = .next t)
    (hstep : step t = .next u) : t.pc = m.address ∧ u.trace = some (traceRecord t (s.reg r)) := by
  obtain ⟨-, hcommands⟩ := storeRegister_sameMapAndCommands hstore
  have hnext' : (nextCommand t).1 = .step := (nextCommand_fst_congr hcommands).trans hnext
  rw [storeRegister_ram hram, hm] at hstore
  cases hstore
  exact ⟨rfl, step_trace hnext' (State.readAnswer_of_ram hram (s.byteAt_poke_same m.address (s.reg r))) hstep⟩

/-- Settles O17: each of the six is a store to its operand, which is where PC is left. -/
theorem storeSeenByNextFetch : Obligations.StoreSeenByNextFetch := by
  rintro i r ea s t u hi ⟨hnext, -⟩ hram hexec hstep
  have hstore : ∃ m : Dest, m.address = ea ∧ s.pc + m.length = ea ∧ exec i s = storeRegister r m s := by
    simp only [List.mem_cons, Prod.mk.injEq, List.not_mem_nil, or_false] at hi
    rcases hi with ⟨rfl, rfl, h⟩ | ⟨rfl, rfl, h⟩ | ⟨rfl, rfl, h⟩ | ⟨rfl, rfl, h⟩ | ⟨rfl, rfl, h⟩ | ⟨rfl, rfl, h⟩
    · exact ⟨.zeroPage ea, rfl, h.symm, rfl⟩
    · exact ⟨.zeroPage ea, rfl, h.symm, rfl⟩
    · exact ⟨.zeroPage ea, rfl, h.symm, rfl⟩
    · exact ⟨.absolute ea, rfl, h.symm, rfl⟩
    · exact ⟨.absolute ea, rfl, h.symm, rfl⟩
    · exact ⟨.absolute ea, rfl, h.symm, rfl⟩
  obtain ⟨m, rfl, hm, he⟩ := hstore
  obtain ⟨hpc, htrace⟩ := storeRegister_seen_by_step hm hnext hram (he ▸ hexec) hstep
  exact ⟨hpc, _, htrace, rfl, hpc⟩

/-! ## The requests of a STEP -/

/-- What plain memory holds depends on the memory map and the contents only. -/
theorem State.holds_congr {s t : State} {a : Addr} {bs : List Byte} (h : s.holds a bs) (hr : t.regions = s.regions)
    (hm : t.mem = s.mem) : t.holds a bs := by
  induction bs generalizing a with
  | nil => trivial
  | cons b bs ih =>
    obtain ⟨hread, hbyte, hrest⟩ := h
    exact ⟨(State.readable_congr hr a).trans hread, (State.byteAt_congr hm a).trans hbyte, ih hrest⟩

theorem State.holds_tail {s : State} {a : Addr} {b : Byte} {bs : List Byte} (h : s.holds a (b :: bs)) :
    s.holds (a + 1) bs := by
  obtain ⟨-, -, hrest⟩ := h
  exact hrest

/-- The first of the bytes held is what a read there is answered with. -/
theorem State.readAnswer_of_holds {s : State} {a : Addr} {b : Byte} {bs : List Byte} (h : s.holds a (b :: bs)) :
    s.readAnswer a = .value b := by
  obtain ⟨hread, rfl, -⟩ := h
  exact State.readAnswer_of_readable hread

/-- Bytes that decode to an instruction: the opcode's format assembles it of the others. -/
theorem decode_eq_instr {bs rest : List Byte} {i : Instr} (h : decode bs = .instr i rest) :
    ∃ op operand sh, bs = op :: operand ∧ shapeOf op = some sh ∧ sh.assemble operand = some (i, rest) := by
  cases bs with
  | nil => cases h
  | cons op operand =>
    cases hsh : shapeOf op with
    | none => simp [decode, hsh] at h
    | some sh =>
      cases has : sh.assemble operand with
      | none => simp [decode, hsh, has] at h
      | some p =>
        simp only [decode, hsh, has, Decoded.instr.injEq] at h
        obtain ⟨rfl, rfl⟩ := h
        exact ⟨op, operand, sh, rfl, hsh, has⟩

/-- A format with one operand byte reads it and hands it on. -/
theorem memRead_andThen_of_holds {α : Type} {a : Addr} {b : Byte} {s : State} (h : s.holds a [b]) (f : Byte → α) :
    (memRead a s).andThen (fun v s' => .ok (f v) s') = .ok (f b) { s with log := s.log ++ readsOf a [b] } := by
  rw [memRead_value (State.readAnswer_of_holds h)]
  rfl

/-- Operand bytes that stand in plain memory past PC are read in order and assembled as the decoder does (R68, R92). -/
theorem fetchOperand_of_holds {sh : Shape} {s : State} {i : Instr} {bs : List Byte} (h : s.holds (s.pc + 1) bs)
    (has : sh.assemble bs = some (i, [])) :
    fetchOperand sh s = .ok i { s with log := s.log ++ readsOf (s.pc + 1) bs } := by
  cases sh with
  | implied j =>
    simp only [Shape.assemble, Option.some.injEq, Prod.mk.injEq] at has
    obtain ⟨rfl, rfl⟩ := has
    simp [fetchOperand, readsOf]
  | immediate make =>
    obtain _ | ⟨b, bs⟩ := bs <;> cases has
    exact memRead_andThen_of_holds h make
  | zeroPage make =>
    obtain _ | ⟨b, bs⟩ := bs <;> cases has
    exact memRead_andThen_of_holds h fun z => make (zext16 z)
  | relative make =>
    obtain _ | ⟨b, bs⟩ := bs <;> cases has
    exact memRead_andThen_of_holds h fun d => make (sext16 d)
  | absolute make =>
    obtain _ | ⟨lo, _ | ⟨hi, bs⟩⟩ := bs <;> cases has
    have hhi : (s.record (.read (s.pc + 1) (.value lo))).holds (s.pc + 1 + 1) [hi] :=
      State.holds_congr (State.holds_tail h) rfl rfl
    rw [fetchOperand, memRead16_value (State.readAnswer_of_holds h) (State.readAnswer_of_holds hhi),
      State.record_record]
    rfl

/-- A STEP of a valid state whose operand fetch gives an instruction runs it. -/
theorem stepCommand_run {s s' : State} {op : Byte} {sh : Shape} {i : Instr} (hop : s.readAnswer s.pc = .value op)
    (hv : getFlag s.p .always = true) (hsh : shapeOf op = some sh) (hf : fetchOperand sh (s.inStep op []) = .ok i s') :
    stepCommand s = exec i s' := by
  have hin : (s.record (.read s.pc (.value op))).emit (some (traceRecord (s.record (.read s.pc (.value op))) op))
      = s.inStep op [] := rfl
  have hval : validateState (s.inStep op []) = [] := validateState_eq_nil_iff.2 hv
  simp only [stepCommand, fetchInstr, memRead_value hop, hin, hval, decodeAndFetch, hsh, hf]

/-- A STEP at an instruction's bytes in plain memory executes it once the reads that fetched the bytes are recorded. -/
theorem stepCommand_of_decode {s : State} {i : Instr} {op : Byte} {bs : List Byte} (hv : getFlag s.p .always = true)
    (hheld : s.holds s.pc (op :: bs)) (hdec : decode (op :: bs) = .instr i []) :
    stepCommand s = exec i (s.inStep op (readsOf (s.pc + 1) bs)) := by
  obtain ⟨_, _, sh, hbs, hsh, has⟩ := decode_eq_instr hdec
  cases hbs
  have hrest : (s.inStep op []).holds (s.pc + 1) bs := State.holds_congr (State.holds_tail hheld) rfl rfl
  have hfetch := fetchOperand_of_holds hrest has
  rw [stepCommand_run (State.readAnswer_of_holds hheld) hv hsh hfetch]
  exact congrArg (exec i) (s.inStep_append op _)

/-- A step at an instruction's bytes runs it, the STEP listed or issued by the host on its own. -/
theorem step_of_decode {s : State} {i : Instr} {bs : List Byte} (hready : s.stepReady) (hheld : s.holds s.pc bs)
    (hdec : decode bs = .instr i []) : step s = exec i (s.fetched bs) := by
  obtain ⟨hnext, hv⟩ := hready
  obtain ⟨op, operand, -, rfl, -, -⟩ := decode_eq_instr hdec
  rw [step_eq_stepCommand hnext]
  exact stepCommand_of_decode (s := { s with commands := s.commands.tail }) hv (State.holds_congr hheld rfl rfl) hdec

/-- With no region mapped every address is RAM (R73). -/
theorem State.kindAt_flatRam {s : State} (h : s.regions = []) (a : Addr) : s.kindAt a = .ram := by
  rw [State.kindAt, h, kindIn]

theorem loadRegister_immediate_log {r : Reg} {v : Byte} {s t : State} (h : loadRegister r (.immediate v) s = .next t) :
    t.log = s.log := by
  cases h
  simp [loadValue]

/-- A load whose value is one data read makes that request. -/
theorem loadRegister_log {r : Reg} {m : Source} {ea : Addr} {s t : State} (hflat : s.regions = [])
    (hm : resolveValue m s = memRead ea s) (h : loadRegister r m s = .next t) :
    t.log = s.log ++ [.read ea (.value (s.byteAt ea))] := by
  have hread := memRead_value (State.readAnswer_plain (.inl (State.kindAt_flatRam hflat ea)))
  rw [loadRegister, hm, hread] at h
  cases h
  simp [loadValue]

theorem storeRegister_log {r : Reg} {m : Dest} {s t : State} (hflat : s.regions = [])
    (h : storeRegister r m s = .next t) : t.log = s.log ++ [.write m.address (s.reg r) .completed] := by
  rw [storeRegister_ram (State.kindAt_flatRam hflat _)] at h
  cases h
  rfl

theorem branch_log {f : Flag} {e : Bool} {off : Addr} {s t : State} (h : branch f e off s = .next t) :
    t.log = s.log := by
  rw [branch_next h]
  rfl

theorem flagOp_log {f : Flag} {b : Bool} {s t : State} (h : flagOp f b s = .next t) : t.log = s.log := by
  rw [flagOp_next h]
  rfl

/-- Under FlatRAM an instruction makes its one data request, or none (R68, R72). -/
theorem exec_log {i : Instr} {s t : State} (hflat : s.regions = []) (h : exec i s = .next t) :
    t.log = s.log ++ dataRequests i s := by
  have noRequest (e : t.log = s.log) : t.log = s.log ++ [] := by rw [e, List.append_nil]
  cases i with
  | ldaImm | ldxImm | ldyImm => exact noRequest (loadRegister_immediate_log h)
  | ldaZp | ldxZp | ldyZp | ldaAbs | ldxAbs | ldyAbs => exact loadRegister_log hflat rfl h
  | staZp | stxZp | styZp | staAbs | stxAbs | styAbs => exact storeRegister_log hflat h
  | bpl | bmi | bvc | bvs | bcc | bcs | bne | beq => exact noRequest (branch_log h)
  | clc | sec | cli | sei | clv | cld | sed => exact noRequest (flagOp_log h)

/-- The data request depends on the registers and the contents only. -/
theorem dataRequests_fetched (i : Instr) (s : State) (bs : List Byte) :
    dataRequests i (s.fetched bs) = dataRequests i s := by
  cases i <;> rfl

/-- Settles O25: the STEP is the instruction run after its bytes were read, and then makes its data request. -/
theorem stepRequestSequence : Obligations.StepRequestSequence := by
  intro s t i bs hready hflat hheld hdec hstep
  rw [step_of_decode hready hheld hdec] at hstep
  rw [exec_log (s := s.fetched bs) hflat hstep, dataRequests_fetched]
  rfl

end Sys2Proof.Machine
end

section
/-! PROOFS. 30_encoding: the decoder and the encoder are each other's inverse (O1, O2), the opcodes known (O3), the length
(O4), words of the spec (O5), what the assembler gives for each mnemonic and operand (O57, O58) and which lines of
characters it accepts (O59). -/

namespace Sys2Proof

/-! ## The bytes of an instruction are read back, by format (R91, R92) -/

theorem decode_of_assemble {op : Byte} {sh : Shape} {bs rest : List Byte} {i : Instr} (hsh : shapeOf op = some sh)
    (has : sh.assemble bs = some (i, rest)) : decode (op :: bs) = .instr i rest := by
  simp only [decode, hsh, has]

theorem decode_implied {op : Byte} {i : Instr} (hsh : shapeOf op = some (.implied i)) (rest : List Byte) :
    decode (op :: rest) = .instr i rest :=
  decode_of_assemble hsh rfl

theorem decode_immediate {op : Byte} {make : Byte → Instr} (hsh : shapeOf op = some (.immediate make)) (v : Byte)
    (rest : List Byte) : decode (op :: v :: rest) = .instr (make v) rest :=
  decode_of_assemble hsh rfl

/-- An address of page 0 is assembled again from its low byte. -/
theorem decode_zeroPage {op : Byte} {make : Addr → Instr} (hsh : shapeOf op = some (.zeroPage make)) {ea : Addr}
    (hea : inZeroPage ea = true) (rest : List Byte) : decode (op :: loByte ea :: rest) = .instr (make ea) rest :=
  decode_of_assemble hsh (by rw [Shape.assemble, zext16_loByte hea])

theorem decode_absolute {op : Byte} {make : Addr → Instr} (hsh : shapeOf op = some (.absolute make)) (ea : Addr)
    (rest : List Byte) : decode (op :: loByte ea :: hiByte ea :: rest) = .instr (make ea) rest :=
  decode_of_assemble hsh (by rw [Shape.assemble, hiLo_hiByte_loByte])

/-- An offset in [-128, 127] is assembled again from its low byte. -/
theorem decode_relative {op : Byte} {make : Addr → Instr} (hsh : shapeOf op = some (.relative make)) {off : Addr}
    (hoff : isOffset off = true) (rest : List Byte) : decode (op :: loByte off :: rest) = .instr (make off) rest :=
  decode_of_assemble hsh (by rw [Shape.assemble, sext16_loByte hoff])

/-- Settles O1: the opcode's table row is the instruction's own format, which assembles the operand again. -/
theorem decodeOfEncode : Obligations.DecodeOfEncode := by
  intro i rest hwf
  cases i with
  | clc | sec | cli | sei | clv | cld | sed => exact decode_implied rfl rest
  | ldaImm v | ldxImm v | ldyImm v => exact decode_immediate rfl v rest
  | ldaZp ea | ldxZp ea | ldyZp ea | staZp ea | stxZp ea | styZp ea => exact decode_zeroPage rfl hwf rest
  | ldaAbs ea | ldxAbs ea | ldyAbs ea | staAbs ea | stxAbs ea | styAbs ea => exact decode_absolute rfl ea rest
  | bpl off | bmi off | bvc off | bvs off | bcc off | bcs off | bne off | beq off => exact decode_relative rfl hwf rest

/-! ## What a row of the opcode table says of the encoder -/

/-- The instructions a format makes are encoded as the opcode and that format's operand bytes, and the format's operand
check is theirs (R91, R92). -/
def Shape.EncodedWith (op : Byte) : Shape → Prop
  | .implied i => i.wellFormed = true ∧ encode i = [op]
  | .immediate make => ∀ v, (make v).wellFormed = true ∧ encode (make v) = [op, v]
  | .zeroPage make => ∀ ea, (make ea).wellFormed = inZeroPage ea ∧ encode (make ea) = [op, loByte ea]
  | .absolute make => ∀ ea, (make ea).wellFormed = true ∧ encode (make ea) = [op, loByte ea, hiByte ea]
  | .relative make => ∀ off, (make off).wellFormed = isOffset off ∧ encode (make off) = [op, loByte off]

/-- Each row of the table is the encoder's row for the same opcode (R95). -/
theorem encodedWith_of_shapeOf {op : Byte} {sh : Shape} (hsh : shapeOf op = some sh) : sh.EncodedWith op := by
  have hop : op = BitVec.ofNat 8 op.toNat := by simp
  rw [hop]
  unfold shapeOf at hsh
  split at hsh
  case h_31 => cases hsh
  all_goals
    rename_i hn
    rw [hn]
    cases hsh
    simp [Shape.EncodedWith, Instr.wellFormed, encode]

/-- What a format assembles is well formed and encoded as the bytes taken. -/
theorem Shape.EncodedWith.of_assemble {op : Byte} {sh : Shape} {bs rest : List Byte} {i : Instr}
    (h : sh.EncodedWith op) (has : sh.assemble bs = some (i, rest)) :
    i.wellFormed = true ∧ encode i ++ rest = op :: bs := by
  cases sh with
  | implied j =>
    cases has
    obtain ⟨hwf, henc⟩ := h
    exact ⟨hwf, by simp [henc]⟩
  | immediate make =>
    obtain _ | ⟨v, bs⟩ := bs <;> cases has
    obtain ⟨hwf, henc⟩ := h v
    exact ⟨hwf, by simp [henc]⟩
  | zeroPage make =>
    obtain _ | ⟨z, bs⟩ := bs <;> cases has
    obtain ⟨hwf, henc⟩ := h (zext16 z)
    exact ⟨by simp [hwf], by simp [henc]⟩
  | absolute make =>
    obtain _ | ⟨lo, _ | ⟨hi, bs⟩⟩ := bs <;> cases has
    obtain ⟨hwf, henc⟩ := h (hiLo hi lo)
    exact ⟨hwf, by simp [henc]⟩
  | relative make =>
    obtain _ | ⟨d, bs⟩ := bs <;> cases has
    obtain ⟨hwf, henc⟩ := h (sext16 d)
    exact ⟨by simp [hwf], by simp [henc]⟩

/-- Settles O2: the row the decoder took is the encoder's row. -/
theorem encodeOfDecode : Obligations.EncodeOfDecode := by
  intro bs rest i h
  obtain ⟨op, operand, sh, rfl, hsh, has⟩ := Machine.decode_eq_instr h
  exact (encodedWith_of_shapeOf hsh).of_assemble has

/-! ## The opcodes known (R95, R99) -/

/-- The thirty opcodes of the table, in its order. -/
def knownOpcodes : List Byte :=
  [0x10, 0x18, 0x30, 0x38, 0x50, 0x58, 0x70, 0x78, 0x84, 0x85, 0x86, 0x8C, 0x8D, 0x8E, 0x90, 0xA0, 0xA2, 0xA4, 0xA5,
   0xA6, 0xA9, 0xAC, 0xAD, 0xAE, 0xB0, 0xB8, 0xD0, 0xD8, 0xF0, 0xF8]

theorem shapeOf_isNone (op : Byte) : (shapeOf op).isNone = true ↔ op ∉ knownOpcodes := by
  revert op; decide

/-- A first byte is refused as unknown exactly if the table has no row for it. -/
theorem decode_unknownOpcode_iff {op : Byte} {rest : List Byte} :
    decode (op :: rest) = .refused (.unknownOpcode op) ↔ (shapeOf op).isNone = true := by
  cases hsh : shapeOf op with
  | none => simp [decode, hsh]
  | some sh => cases has : sh.assemble rest <;> simp [decode, hsh, has]

/-- No format takes more than two operand bytes. -/
theorem Shape.assemble_two_bytes (sh : Shape) (b₁ b₂ : Byte) (rest : List Byte) :
    ∃ i left, sh.assemble (b₁ :: b₂ :: rest) = some (i, left) := by
  cases sh <;> exact ⟨_, _, rfl⟩

/-- Settles O3: the table has a row exactly for the bytes listed, and two more bytes are enough for any format. -/
theorem thirtyKnownOpcodes : Obligations.ThirtyKnownOpcodes := by
  refine ⟨fun op rest => decode_unknownOpcode_iff.trans (shapeOf_isNone op), fun op b₁ b₂ rest hop => ?_,
    (by decide : knownOpcodes.Nodup), rfl⟩
  cases hsh : shapeOf op with
  | none => exact absurd hop ((shapeOf_isNone op).1 (by rw [hsh]; rfl))
  | some sh =>
    obtain ⟨i, left, has⟩ := sh.assemble_two_bytes b₁ b₂ rest
    exact ⟨i, left, decode_of_assemble hsh has⟩

/-! ## The length (R90, R93) -/

/-- The family `LengthFromOpcode`, for all thirty instructions. -/
theorem lengthFromOpcode (i : Instr) : Laws.LengthFromOpcode.Statement i := by
  open Laws.LengthFromOpcode in
  cases i
  exacts [bpl _, clc, bmi _, sec, bvc _, cli, bvs _, sei, styZp _, staZp _, stxZp _, styAbs _, staAbs _, stxAbs _, bcc _,
    ldyImm _, ldxImm _, ldyZp _, ldaZp _, ldxZp _, ldaImm _, ldyAbs _, ldaAbs _, ldxAbs _, bcs _, clv, bne _, cld, beq _,
    sed]

/-- The size of an instruction read is one more than the operand bytes its opcode's format takes, and the number of bytes
consumed. -/
theorem size_of_decode {op : Byte} {bs rest : List Byte} {i : Instr} (h : decode (op :: bs) = .instr i rest) :
    (∃ sh, shapeOf op = some sh ∧ i.size = sh.operandBytes + 1) ∧ (op :: bs).length = i.size + rest.length := by
  obtain ⟨op', operand, sh, henc, hsh, hbytes, hsize⟩ := lengthFromOpcode i
  obtain ⟨-, hconsumed⟩ := encodeOfDecode _ _ _ h
  rw [henc] at hconsumed
  obtain ⟨rfl, -⟩ := List.cons.inj hconsumed
  refine ⟨⟨sh, hsh, by rw [hsize, hbytes]⟩, ?_⟩
  rw [← hconsumed, List.length_append, List.length_cons, hsize]

/-- Settles O4: both sizes are the one the opcode's format gives. -/
theorem opcodeDecidesLength : Obligations.OpcodeDecidesLength := by
  intro op r₁ r₂ l₁ l₂ i₁ i₂ h₁ h₂
  obtain ⟨⟨sh₁, hsh₁, hsize₁⟩, hconsumed⟩ := size_of_decode h₁
  obtain ⟨⟨sh₂, hsh₂, hsize₂⟩, -⟩ := size_of_decode h₂
  have hsame : sh₁ = sh₂ := Option.some.inj (hsh₁.symm.trans hsh₂)
  exact ⟨by rw [hsize₁, hsize₂, hsame], hconsumed⟩

/-- Settles O5: the words are closed terms, which the decoder evaluates. -/
theorem specWordsDecode : Obligations.SpecWordsDecode := by
  unfold Obligations.SpecWordsDecode
  decide

end Sys2Proof

namespace Sys2Proof.Machine

/-! ## A branch with its target or a raw offset (R102) -/

/-- The eight branches: the mnemonic, the opcode and the instruction made of an offset. -/
def branchTable : List (List Char × Byte × (Addr → Instr)) :=
  [(['B', 'P', 'L'], 0x10, .bpl), (['B', 'M', 'I'], 0x30, .bmi), (['B', 'V', 'C'], 0x50, .bvc),
   (['B', 'V', 'S'], 0x70, .bvs), (['B', 'C', 'C'], 0x90, .bcc), (['B', 'C', 'S'], 0xB0, .bcs),
   (['B', 'N', 'E'], 0xD0, .bne), (['B', 'E', 'Q'], 0xF0, .beq)]

/-- Each mnemonic of the table takes a branch's operand, and the branch it makes is encoded with its opcode. -/
theorem assemble_encode_branch : ∀ row ∈ branchTable,
    (∀ op o, assemble op row.1 o = branchOperand op row.2.2 o) ∧ ∀ off, encode (row.2.2 off) = [row.2.1, loByte off] := by
  simp only [branchTable, List.forall_mem_cons]
  refine ⟨?_, ?_, ?_, ?_, ?_, ?_, ?_, ?_, by simp⟩ <;> exact ⟨fun _ _ => rfl, fun _ => rfl⟩

theorem toInt_ofInt_of_offset {d : Int} (h : -128 ≤ d ∧ d ≤ 127) : (BitVec.ofInt 16 d).toInt = d := by
  rw [BitVec.toInt_ofInt, Int.bmod]
  split <;> omega

/-- Settles O57: the two operands of a branch, each accepted exactly within [-128, 127]. -/
theorem assembledBranchReachesTarget : Obligations.AssembledBranchReachesTarget := by
  intro mnemonic opcode op hmem
  obtain ⟨⟨_, _, make⟩, hrow, ⟨⟩⟩ := List.mem_map.1 (show _ ∈ branchTable.map fun row => (row.1, row.2.1) from hmem)
  obtain ⟨hassemble, hencode⟩ := assemble_encode_branch _ hrow
  refine ⟨fun target => ⟨fun hin => ⟨?_, ?_⟩, fun hout => ?_⟩, fun d => ⟨fun hin => ?_, fun hout => ?_⟩⟩
  · rw [hassemble, branchOperand, offsetTo, if_pos ((isOffset_iff _).2 hin)]
    simp only [Option.map_some, hencode, loByte_eq_ofInt]
  · rw [← loByte_eq_ofInt, sext16_loByte ((isOffset_iff _).2 hin), takenTarget]
    ring
  · rw [hassemble, branchOperand, offsetTo, if_neg (mt (isOffset_iff _).1 hout), Option.map_none]
  · rw [hassemble, branchOperand, rawOffset, if_pos hin]
    simp only [Option.map_some, hencode, loByte_eq_ofInt, toInt_ofInt_of_offset hin]
  · rw [hassemble, branchOperand, rawOffset, if_neg hout, Option.map_none]

/-! ## Which instruction each mnemonic and operand form gives (R98, R101, R102) -/

/-- The mnemonics that take an immediate, each with its instruction. -/
def immediateForms (v : Byte) : List (List Char × Instr) :=
  [(['L', 'D', 'A'], .ldaImm v), (['L', 'D', 'X'], .ldxImm v), (['L', 'D', 'Y'], .ldyImm v)]

/-- The mnemonics that take two digits. -/
def zeroPageForms (ea : Addr) : List (List Char × Instr) :=
  [(['L', 'D', 'A'], .ldaZp ea), (['L', 'D', 'X'], .ldxZp ea), (['L', 'D', 'Y'], .ldyZp ea),
   (['S', 'T', 'A'], .staZp ea), (['S', 'T', 'X'], .stxZp ea), (['S', 'T', 'Y'], .styZp ea)]

/-- The mnemonics that take four digits as the address of their operand. -/
def absoluteForms (ea : Addr) : List (List Char × Instr) :=
  [(['L', 'D', 'A'], .ldaAbs ea), (['L', 'D', 'X'], .ldxAbs ea), (['L', 'D', 'Y'], .ldyAbs ea),
   (['S', 'T', 'A'], .staAbs ea), (['S', 'T', 'X'], .stxAbs ea), (['S', 'T', 'Y'], .styAbs ea)]

/-- The mnemonics that take a target or a raw offset. -/
def branchForms (off : Addr) : List (List Char × Instr) := branchTable.map fun row => (row.1, row.2.2 off)

/-- The mnemonics that take no operand. -/
def flagForms : List (List Char × Instr) :=
  [(['C', 'L', 'C'], .clc), (['S', 'E', 'C'], .sec), (['C', 'L', 'I'], .cli), (['S', 'E', 'I'], .sei),
   (['C', 'L', 'V'], .clv), (['C', 'L', 'D'], .cld), (['S', 'E', 'D'], .sed)]

/-- The mnemonic takes the operand, by the operand's form, and with it stands for the instruction. -/
def AssemblesTo (op : Addr) (mnemonic : List Char) (o : AsmOperand) (i : Instr) : Prop :=
  (∃ v, o = .immediate v ∧ (mnemonic, i) ∈ immediateForms v) ∨
  (∃ z, o = .twoDigits z ∧ (mnemonic, i) ∈ zeroPageForms (zext16 z)) ∨
  (∃ ea, o = .fourDigits ea ∧ (mnemonic, i) ∈ absoluteForms ea) ∨
  (∃ off : Addr, -128 ≤ off.toInt ∧ off.toInt ≤ 127 ∧
    (o = .fourDigits (op + 1 + off) ∨ o = .rawOffset off.toInt) ∧ (mnemonic, i) ∈ branchForms off) ∨
  (o = .none ∧ (mnemonic, i) ∈ flagForms)

theorem loadOperand_eq_some {imm : Byte → Instr} {zp abs : Addr → Instr} {o : AsmOperand} {i : Instr} :
    loadOperand imm zp abs o = some i ↔ (∃ v, o = .immediate v ∧ i = imm v) ∨
      (∃ z, o = .twoDigits z ∧ i = zp (zext16 z)) ∨ ∃ ea, o = .fourDigits ea ∧ i = abs ea := by
  cases o <;> simp [loadOperand, eq_comm]

theorem storeOperand_eq_some {zp abs : Addr → Instr} {o : AsmOperand} {i : Instr} :
    storeOperand zp abs o = some i ↔
      (∃ z, o = .twoDigits z ∧ i = zp (zext16 z)) ∨ ∃ ea, o = .fourDigits ea ∧ i = abs ea := by
  cases o <;> simp [storeOperand, eq_comm]

theorem noOperand_eq_some {j : Instr} {o : AsmOperand} {i : Instr} :
    noOperand j o = some i ↔ o = .none ∧ i = j := by
  cases o <;> simp [noOperand, eq_comm]

/-- Whatever is accepted is one of the forms: each mnemonic takes a load's, a store's, a branch's or no operand. -/
theorem assemblesTo_of_assemble {op : Addr} {mnemonic : List Char} {o : AsmOperand} {i : Instr}
    (h : assemble op mnemonic o = some i) : AssemblesTo op mnemonic o i := by
  unfold assemble at h
  split at h
  case h_1 | h_2 | h_3 =>
    rcases loadOperand_eq_some.1 h with ⟨v, rfl, rfl⟩ | ⟨z, rfl, rfl⟩ | ⟨ea, rfl, rfl⟩
    · exact .inl ⟨v, rfl, by simp [immediateForms]⟩
    · exact .inr (.inl ⟨z, rfl, by simp [zeroPageForms]⟩)
    · exact .inr (.inr (.inl ⟨ea, rfl, by simp [absoluteForms]⟩))
  case h_4 | h_5 | h_6 =>
    rcases storeOperand_eq_some.1 h with ⟨z, rfl, rfl⟩ | ⟨ea, rfl, rfl⟩
    · exact .inr (.inl ⟨z, rfl, by simp [zeroPageForms]⟩)
    · exact .inr (.inr (.inl ⟨ea, rfl, by simp [absoluteForms]⟩))
  case h_7 | h_8 | h_9 | h_10 | h_11 | h_12 | h_13 | h_14 =>
    obtain ⟨off, hlo, hhi, ho, rfl⟩ := (branchOperand_eq_some _ _ _ _).1 h
    exact .inr (.inr (.inr (.inl ⟨off, hlo, hhi, ho, by simp [branchForms, branchTable]⟩)))
  case h_15 | h_16 | h_17 | h_18 | h_19 | h_20 | h_21 =>
    obtain ⟨rfl, rfl⟩ := noOperand_eq_some.1 h
    exact .inr (.inr (.inr (.inr ⟨rfl, by simp [flagForms]⟩)))
  case h_22 => cases h

theorem assemble_immediateForms (op : Addr) (v : Byte) :
    ∀ f ∈ immediateForms v, assemble op f.1 (.immediate v) = some f.2 := by
  simp only [immediateForms, List.forall_mem_cons]
  exact ⟨rfl, rfl, rfl, by simp⟩

theorem assemble_zeroPageForms (op : Addr) (z : Byte) :
    ∀ f ∈ zeroPageForms (zext16 z), assemble op f.1 (.twoDigits z) = some f.2 := by
  simp only [zeroPageForms, List.forall_mem_cons]
  exact ⟨rfl, rfl, rfl, rfl, rfl, rfl, by simp⟩

theorem assemble_absoluteForms (op ea : Addr) :
    ∀ f ∈ absoluteForms ea, assemble op f.1 (.fourDigits ea) = some f.2 := by
  simp only [absoluteForms, List.forall_mem_cons]
  exact ⟨rfl, rfl, rfl, rfl, rfl, rfl, by simp⟩

theorem assemble_flagForms (op : Addr) : ∀ f ∈ flagForms, assemble op f.1 .none = some f.2 := by
  simp only [flagForms, List.forall_mem_cons]
  exact ⟨rfl, rfl, rfl, rfl, rfl, rfl, rfl, by simp⟩

/-- Every form is accepted. -/
theorem assemble_of_assemblesTo {op : Addr} {mnemonic : List Char} {o : AsmOperand} {i : Instr}
    (h : AssemblesTo op mnemonic o i) : assemble op mnemonic o = some i := by
  rcases h with ⟨v, rfl, hm⟩ | ⟨z, rfl, hm⟩ | ⟨ea, rfl, hm⟩ | ⟨off, hlo, hhi, ho, hm⟩ | ⟨rfl, hm⟩
  · exact assemble_immediateForms op v _ hm
  · exact assemble_zeroPageForms op z _ hm
  · exact assemble_absoluteForms op ea _ hm
  · obtain ⟨row, hrow, ⟨⟩⟩ := List.mem_map.1 hm
    obtain ⟨hassemble, -⟩ := assemble_encode_branch row hrow
    exact (hassemble op o).trans ((branchOperand_eq_some _ _ _ _).2 ⟨off, hlo, hhi, ho, rfl⟩)
  · exact assemble_flagForms op _ hm

/-- A mnemonic has three letters, and the operand of what it is assembled to is one an encoding can hold. -/
theorem assemble_length_wellFormed {op : Addr} {mnemonic : List Char} {o : AsmOperand} {i : Instr}
    (h : assemble op mnemonic o = some i) : mnemonic.length = 3 ∧ i.wellFormed = true := by
  have himmediate (v : Byte) : ∀ f ∈ immediateForms v, f.1.length = 3 ∧ f.2.wellFormed = true := by
    simp [immediateForms, Instr.wellFormed]
  have hzeroPage (ea : Addr) : ∀ f ∈ zeroPageForms ea, f.1.length = 3 ∧ f.2.wellFormed = inZeroPage ea := by
    simp [zeroPageForms, Instr.wellFormed]
  have habsolute (ea : Addr) : ∀ f ∈ absoluteForms ea, f.1.length = 3 ∧ f.2.wellFormed = true := by
    simp [absoluteForms, Instr.wellFormed]
  have hbranch (off : Addr) : ∀ f ∈ branchForms off, f.1.length = 3 ∧ f.2.wellFormed = isOffset off := by
    simp [branchForms, branchTable, Instr.wellFormed]
  have hflag : ∀ f ∈ flagForms, f.1.length = 3 ∧ f.2.wellFormed = true := by simp [flagForms, Instr.wellFormed]
  rcases assemblesTo_of_assemble h with
    ⟨v, -, hm⟩ | ⟨z, -, hm⟩ | ⟨ea, -, hm⟩ | ⟨off, hlo, hhi, -, hm⟩ | ⟨-, hm⟩
  · exact himmediate v _ hm
  · exact (hzeroPage _ _ hm).imp_right fun hwf => hwf.trans (inZeroPage_zext16 z)
  · exact habsolute ea _ hm
  · exact (hbranch off _ hm).imp_right fun hwf => hwf.trans ((isOffset_iff off).2 ⟨hlo, hhi⟩)
  · exact hflag _ hm

/-- What the assembler gives has an encodable operand, so its bytes are read back. -/
theorem decode_encode_of_assemble {op : Addr} {mnemonic : List Char} {o : AsmOperand} {i : Instr}
    (h : assemble op mnemonic o = some i) : decode (encode i) = .instr i [] := by
  obtain ⟨-, hwf⟩ := assemble_length_wellFormed h
  simpa using decodeOfEncode i [] hwf

/-- A line accepted is a mnemonic alone, or a mnemonic, a space and a text the parser reads as its operand. -/
theorem assemble_of_assembleLine {op : Addr} {line : List Char} {i : Instr} (h : assembleLine op line = some i) :
    assemble op line .none = some i ∨ ∃ mnemonic text o, line = mnemonic ++ ' ' :: text ∧ parseOperand text = some o ∧
      assemble op mnemonic o = some i := by
  unfold assembleLine at h
  split at h
  next a b c => exact .inl h
  next a b c text =>
    obtain ⟨o, ho, hi⟩ := Option.bind_eq_some_iff.1 h
    exact .inr ⟨[a, b, c], text, o, rfl, ho, hi⟩
  next => cases h

/-- Settles O58: the forms are accepted and nothing else is, and a line gives only what a mnemonic with an operand does. -/
theorem assembledDecodes : Obligations.AssembledDecodes := by
  refine ⟨fun _ _ _ _ => ⟨assemblesTo_of_assemble, assemble_of_assemblesTo⟩,
    fun _ _ _ _ h => decode_encode_of_assemble h, fun op line i h => ?_⟩
  rcases assemble_of_assembleLine h with h | ⟨_, _, _, -, -, h⟩
  · exact decode_encode_of_assemble h
  · exact decode_encode_of_assemble h

/-! ## The text of an operand, and lines (R101, R102) -/

theorem digits_append (base acc : Nat) (xs ys : List Char) :
    digits base acc (xs ++ ys) = (digits base acc xs).bind fun n => digits base n ys := by
  induction xs generalizing acc with
  | nil => rfl
  | cons c cs ih => cases h : digitValue base c <;> simp [digits, h, ih]

@[simp] theorem digits_nil (base acc : Nat) : digits base acc [] = some acc := rfl

/-- One digit more, most significant first. -/
theorem digits_cons_eq_some {base acc : Nat} {c : Char} {cs : List Char} {n : Nat} :
    digits base acc (c :: cs) = some n ↔ ∃ v, DigitOf base c v ∧ digits base (base * acc + v) cs = some n := by
  simp only [digits, Option.bind_eq_some_iff, digitValue_eq_some]

/-- `hh` (R101). -/
theorem hexPair_eq_some {c d : Char} {n : Nat} :
    digits 16 0 [c, d] = some n ↔ ∃ x y, DigitOf 16 c x ∧ DigitOf 16 d y ∧ n = 16 * x + y := by
  simp only [digits_cons_eq_some, digits_nil, Option.some.injEq, Nat.mul_zero, Nat.zero_add, exists_and_left,
    @eq_comm Nat n]

/-- `hhhh` (R101). -/
theorem hexQuad_eq_some {c d e f : Char} {n : Nat} :
    digits 16 0 [c, d, e, f] = some n ↔ ∃ x y z w, DigitOf 16 c x ∧ DigitOf 16 d y ∧ DigitOf 16 e z ∧
      DigitOf 16 f w ∧ n = 4096 * x + 256 * y + 16 * z + w := by
  have hvalue (x y z w : Nat) :
      16 * (16 * (16 * x + y) + z) + w = n ↔ n = 4096 * x + 256 * y + 16 * z + w := by omega
  simp only [digits_cons_eq_some, digits_nil, Option.some.injEq, Nat.mul_zero, Nat.zero_add, hvalue, exists_and_left]

theorem digits_concat_eq_some {base acc : Nat} {c : Char} {cs : List Char} {n : Nat} :
    digits base acc (cs ++ [c]) = some n ↔
      ∃ m v, digits base acc cs = some m ∧ DigitOf base c v ∧ base * m + v = n := by
  simp [digits_append, Option.bind_eq_some_iff, digits_cons_eq_some, digits_nil]

theorem digits_eq_some_of_decimalText {ds : List Char} {n : Nat} (h : DecimalText ds n) : digits 10 0 ds = some n := by
  induction h with
  | one h => exact digits_cons_eq_some.2 ⟨_, h, by simp⟩
  | more hs h ih => exact digits_concat_eq_some.2 ⟨_, _, ih, h, rfl⟩

theorem decimalText_of_digits {ds : List Char} {n : Nat} (hne : ds ≠ []) (h : digits 10 0 ds = some n) :
    DecimalText ds n := by
  induction ds using List.reverseRecOn generalizing n with
  | nil => exact absurd rfl hne
  | append_singleton cs c ih =>
    obtain ⟨m, v, hm, hv, rfl⟩ := digits_concat_eq_some.1 h
    cases cs with
    | nil => cases hm; simpa using DecimalText.one hv
    | cons d ds => exact .more (ih (by simp) hm) hv

theorem operandText_of_parseOperand {text : List Char} {o : AsmOperand} (h : parseOperand text = some o) :
    OperandText text o := by
  unfold parseOperand at h
  split at h
  next c d =>
    obtain ⟨_, hn, rfl⟩ := Option.map_eq_some_iff.1 h
    obtain ⟨x, y, hx, hy, rfl⟩ := hexPair_eq_some.1 hn
    exact .immediate hx hy
  next c d =>
    obtain ⟨_, hn, rfl⟩ := Option.map_eq_some_iff.1 h
    obtain ⟨x, y, hx, hy, rfl⟩ := hexPair_eq_some.1 hn
    exact .twoDigits hx hy
  next c d e f =>
    obtain ⟨_, hn, rfl⟩ := Option.map_eq_some_iff.1 h
    obtain ⟨x, y, z, w, hx, hy, hz, hw, rfl⟩ := hexQuad_eq_some.1 hn
    exact .fourDigits hx hy hz hw
  next d ds =>
    obtain ⟨n, hn, rfl⟩ := Option.map_eq_some_iff.1 h
    exact .negativeOffset (decimalText_of_digits (by simp) hn)
  next d ds _ =>
    obtain ⟨n, hn, rfl⟩ := Option.map_eq_some_iff.1 h
    exact .rawOffset (decimalText_of_digits (by simp) hn)
  next => cases h

theorem not_digitOf_minus (base v : Nat) : ¬ DigitOf base '-' v := by
  have hminus : '-'.toNat = 45 := rfl
  have h0 : '0'.toNat = 48 := rfl
  have hA : 'A'.toNat = 65 := rfl
  have ha : 'a'.toNat = 97 := rfl
  simp only [DigitOf, hminus, h0, hA, ha]
  omega

/-- A decimal number has a first digit, and so does not begin with the minus sign. -/
theorem decimalText_head {ds : List Char} {n : Nat} (h : DecimalText ds n) : ∃ d ds', ds = d :: ds' ∧ d ≠ '-' := by
  obtain _ | ⟨d, ds'⟩ := ds
  · generalize hds : ([] : List Char) = ds at h
    cases h <;> simp at hds
  · refine ⟨d, ds', rfl, ?_⟩
    rintro rfl
    obtain ⟨v, hv, -⟩ := digits_cons_eq_some.1 (digits_eq_some_of_decimalText h)
    exact not_digitOf_minus 10 v hv

theorem parseOperand_of_operandText {text : List Char} {o : AsmOperand} (h : OperandText text o) :
    parseOperand text = some o := by
  cases h with
  | immediate hc hd =>
    exact Option.map_eq_some_iff.2 ⟨_, hexPair_eq_some.2 ⟨_, _, hc, hd, rfl⟩, rfl⟩
  | twoDigits hc hd =>
    exact Option.map_eq_some_iff.2 ⟨_, hexPair_eq_some.2 ⟨_, _, hc, hd, rfl⟩, rfl⟩
  | fourDigits hc hd he hf =>
    exact Option.map_eq_some_iff.2 ⟨_, hexQuad_eq_some.2 ⟨_, _, _, _, hc, hd, he, hf, rfl⟩, rfl⟩
  | rawOffset hds =>
    obtain ⟨d, ds, rfl, hd⟩ := decimalText_head hds
    simp [parseOperand, digits_eq_some_of_decimalText hds, hd]
  | negativeOffset hds =>
    obtain ⟨d, ds, rfl, -⟩ := decimalText_head hds
    simp [parseOperand, digits_eq_some_of_decimalText hds]

/-- A mnemonic on its own is a line. -/
theorem assembleLine_of_mnemonic {op : Addr} {line : List Char} {i : Instr} (h : assemble op line .none = some i) :
    assembleLine op line = some i := by
  obtain ⟨hlength, -⟩ := assemble_length_wellFormed h
  obtain ⟨a, b, c, rfl⟩ := List.length_eq_three.1 hlength
  exact h

/-- A mnemonic, a space and the text of its operand are a line. -/
theorem assembleLine_of_operandText {op : Addr} {mnemonic text : List Char} {o : AsmOperand} {i : Instr}
    (htext : OperandText text o) (h : assemble op mnemonic o = some i) :
    assembleLine op (mnemonic ++ ' ' :: text) = some i := by
  obtain ⟨hlength, -⟩ := assemble_length_wellFormed h
  obtain ⟨a, b, c, rfl⟩ := List.length_eq_three.1 hlength
  exact Option.bind_eq_some_iff.2 ⟨o, parseOperand_of_operandText htext, h⟩

/-- Settles O59: a line accepted is taken apart at its space, and the parser reads exactly the operand texts. -/
theorem assemblerLineForms : Obligations.AssemblerLineForms := by
  refine fun op line i => ⟨fun h => ?_, ?_⟩
  · rcases assemble_of_assembleLine h with h | ⟨mnemonic, text, o, hline, hparse, h⟩
    · exact .inl h
    · exact .inr ⟨mnemonic, text, o, hline, operandText_of_parseOperand hparse, h⟩
  · rintro (h | ⟨mnemonic, text, o, rfl, htext, h⟩)
    · exact assembleLine_of_mnemonic h
    · exact assembleLine_of_operandText htext h

end Sys2Proof.Machine
end

section
/-! PROOFS. 40_step_cycle: what a STEP comes to, by the answer to its opcode fetch, its validation and its decoding
(O18, O19, O21, O22, O24), MemoryFault (O23, O37), Continue under FlatRAM (O26) and the absence of a halt latch (O27). -/

namespace Sys2Proof.Machine

/-- Settles O18: the bytes at PC are fetched and decoded, and the instruction they make is executed. -/
theorem stepRunsDecoded : Obligations.StepRunsDecoded := fun _ _ _ hready hheld hdec =>
  step_of_decode hready hheld hdec

/-! ## The five things a STEP can come to, in the order of their priority (R121, R124, R127, R132, R265) -/

/-- An opcode fetch that is never answered leaves the machine stuck there. -/
theorem stepCommand_silent {s : State} (h : s.readAnswer s.pc = .silent) :
    stepCommand s = .fault (.noAnswer s.pc .read) := by
  simp only [stepCommand, fetchInstr, memRead, h]

theorem stepCommand_fetchFault {s : State} (h : s.readAnswer s.pc = .fault) :
    stepCommand s = .next (raiseFetchFault s.pc .read (s.record (.read s.pc .fault))) := by
  simp only [stepCommand, fetchInstr, memRead_fault h]

/-- A state whose Always flag is 0 has that one violation: a register of 8 or 16 bits is always in range (R307). -/
theorem validateState_of_always_false {s : State} (h : getFlag s.p .always = false) :
    validateState s = [.alwaysFlagClear] := by
  have hbyte (b : Byte) : ¬ 255 < b.toNat := by have := b.isLt; omega
  have hpc : ¬ 65535 < s.pc.toNat := by have := s.pc.isLt; omega
  simp [validateState, hbyte, hpc, h]

theorem stepCommand_corrupted {s : State} {op : Byte} (hop : s.readAnswer s.pc = .value op)
    (hv : getFlag s.p .always = false) :
    stepCommand s = .next (raiseCorruptedState [.alwaysFlagClear] (s.inStep op [])) := by
  have hin : (s.record (.read s.pc (.value op))).emit (some (traceRecord (s.record (.read s.pc (.value op))) op))
      = s.inStep op [] := rfl
  have hval : validateState (s.inStep op []) = [.alwaysFlagClear] := validateState_of_always_false hv
  simp only [stepCommand, fetchInstr, memRead_value hop, hin, hval]

/-- A valid state's STEP goes on to decode the opcode (R126). -/
theorem fetchInstr_of_always {s : State} {op : Byte} (hop : s.readAnswer s.pc = .value op)
    (hv : getFlag s.p .always = true) : fetchInstr s = decodeAndFetch op (s.inStep op []) := by
  have hin : (s.record (.read s.pc (.value op))).emit (some (traceRecord (s.record (.read s.pc (.value op))) op))
      = s.inStep op [] := rfl
  have hval : validateState (s.inStep op []) = [] := validateState_eq_nil_iff.2 hv
  simp only [fetchInstr, memRead_value hop, hin, hval]

theorem stepCommand_unknown {s : State} {op : Byte} (hop : s.readAnswer s.pc = .value op)
    (hv : getFlag s.p .always = true) (hsh : shapeOf op = none) :
    stepCommand s = .next (raiseUnknownOpcode op (s.inStep op [])) := by
  simp only [stepCommand, fetchInstr_of_always hop hv, decodeAndFetch, hsh]

/-- A known opcode's operand is fetched, and the instruction executed unless a request of the operand ended the STEP. -/
theorem stepCommand_known {s : State} {op : Byte} {sh : Shape} (hop : s.readAnswer s.pc = .value op)
    (hv : getFlag s.p .always = true) (hsh : shapeOf op = some sh) :
    stepCommand s = (fetchOperand sh (s.inStep op [])).finish exec := by
  simp only [stepCommand, fetchInstr_of_always hop hv, decodeAndFetch, hsh]
  cases fetchOperand sh (s.inStep op []) <;> rfl

/-- Settles O21: the fetch is answered and the validation fails, whatever the opcode. -/
theorem stepCorruptedState : Obligations.StepCorruptedState := by
  intro s op hnext hv hop
  have hstep := stepCommand_corrupted (s := { s with commands := s.commands.tail }) hop hv
  exact ⟨_, (step_eq_stepCommand hnext).trans hstep, rfl, rfl, rfl, rfl⟩

/-- Settles O22: the fetch is answered, the validation passes and the opcode has no row in the table. -/
theorem stepUnknownOpcode : Obligations.StepUnknownOpcode := by
  rintro s op ⟨hnext, hv⟩ hop hdec
  have hsh : shapeOf op = none := Option.isNone_iff_eq_none.1 (decode_unknownOpcode_iff.1 hdec)
  have hstep := stepCommand_unknown (s := { s with commands := s.commands.tail }) hop hv hsh
  exact ⟨_, (step_eq_stepCommand hnext).trans hstep, rfl, rfl, ⟨rfl, rfl, rfl, rfl⟩, rfl, rfl, rfl⟩

/-! ## Requests are only ever appended to the record -/

theorem loadRegister_log_prefix {r : Reg} {m : Source} {s t : State} (h : loadRegister r m s = .next t) :
    s.log <+: t.log := by
  have hread := resolveValue_readsOnly m s
  rcases loadRegister_next h with ⟨v, s', e, rfl⟩ | ⟨a, k, s', e, rfl⟩ <;> rw [e] at hread <;> cases hread
  · simp [loadValue]
  · exact List.prefix_append _ _

theorem storeRegister_log_prefix {r : Reg} {m : Dest} {s t : State} (h : storeRegister r m s = .next t) :
    s.log <+: t.log := by
  rcases memWrite_cases m.address (s.reg r) s with ⟨-, e⟩ | ⟨-, e⟩ | ⟨-, e⟩ <;>
    rcases storeRegister_next h with ⟨s', e', rfl⟩ | ⟨a, k, s', e', rfl⟩ <;> rw [e] at e' <;> cases e'
  · exact List.prefix_append _ _
  · exact List.prefix_append _ _

theorem exec_log_prefix {i : Instr} {s t : State} (h : exec i s = .next t) : s.log <+: t.log := by
  cases exec_cases i s with
  | immediateLoad r v hi he => exact loadRegister_log_prefix (he.trans h)
  | memoryLoad r m ea hi hm he => exact loadRegister_log_prefix (he.trans h)
  | store r m hi he => exact storeRegister_log_prefix (he.trans h)
  | branch f e off he => exact (branch_log (he.trans h)) ▸ List.prefix_rfl
  | flagOp f b hi he => exact (flagOp_log (he.trans h)) ▸ List.prefix_rfl

/-- The opcode fetch is the first request of a STEP, whatever follows (R121). -/
theorem stepCommand_log_prefix {s t : State} {op : Byte} (hop : s.readAnswer s.pc = .value op)
    (h : stepCommand s = .next t) : s.log ++ [.read s.pc (.value op)] <+: t.log := by
  have hfirst (l : List Transaction) : s.log ++ [.read s.pc (.value op)] <+: (s.inStep op l).log :=
    (List.prefix_append_right_inj _).2 (List.prefix_append [_] l)
  cases stepCommand_cases s with
  | stuck a ho => rw [ho] at h; cases h
  | fetchFault hr ho => rw [hop] at hr; cases hr
  | corrupted op' hr hv ho => rw [hop] at hr; cases hr; rw [ho] at h; cases h; exact hfirst []
  | unknown op' hr hv hs ho => rw [hop] at hr; cases hr; rw [ho] at h; cases h; exact hfirst []
  | operandFault op' a l hr hv ho => rw [hop] at hr; cases hr; rw [ho] at h; cases h; exact hfirst l
  | run op' i l hr hv ho =>
    rw [hop] at hr; cases hr
    exact (hfirst l).trans (exec_log_prefix (ho.symm.trans h))

/-- Settles O19: what the fetch is answered decides; a value is recorded first and is the opcode of the trace record. -/
theorem stepFetchesOpcode : Obligations.StepFetchesOpcode := by
  intro s hnext
  refine ⟨fun op t hop h => ⟨?_, _, step_trace hnext hop h, rfl⟩, fun hfault => ?_⟩
  · rw [step_eq_stepCommand hnext] at h
    obtain ⟨later, hlog⟩ := stepCommand_log_prefix (s := { s with commands := s.commands.tail }) hop h
    exact ⟨later, by simp [← hlog]⟩
  · rw [step_eq_stepCommand hnext]
    exact stepCommand_fetchFault (s := { s with commands := s.commands.tail }) hfault

/-! ## A fault in the operand (R132, R150-R152, R202) -/

/-- The first operand byte of any format that has one is read just past the opcode. -/
theorem fetchOperand_first_fault {sh : Shape} {s : State} (hbytes : sh.operandBytes ≠ 0)
    (h : s.readAnswer (s.pc + 1) = .fault) :
    fetchOperand sh s = .fault (s.pc + 1) .read (s.record (.read (s.pc + 1) .fault)) := by
  cases sh with
  | implied i => exact absurd rfl hbytes
  | immediate make | zeroPage make | relative make => rw [fetchOperand, memRead_fault h]; rfl
  | absolute make => rw [fetchOperand, memRead16_first_fault h]; rfl

/-- The second operand byte is read at the address after that. -/
theorem fetchOperand_second_fault {sh : Shape} {s : State} {lo : Byte} (hbytes : sh.operandBytes = 2)
    (hlo : s.readAnswer (s.pc + 1) = .value lo)
    (hhi : (s.record (.read (s.pc + 1) (.value lo))).readAnswer (s.pc + 2) = .fault) :
    fetchOperand sh s = .fault (s.pc + 2) .read
      ((s.record (.read (s.pc + 1) (.value lo))).record (.read (s.pc + 2) .fault)) := by
  have hpc : s.pc + 2 = s.pc + 1 + 1 := by rw [BitVec.add_assoc]; rfl
  rw [hpc] at hhi ⊢
  cases sh with
  | implied i | immediate make | zeroPage make | relative make => cases hbytes
  | absolute make => rw [fetchOperand, memRead16_second_fault hlo hhi]; rfl

/-- If an instruction is decoded with no byte left over, its opcode's format takes all the bytes past the opcode. -/
theorem shapeOf_of_decode {op : Byte} {bs : List Byte} {i : Instr} (h : decode (op :: bs) = .instr i []) :
    ∃ sh, shapeOf op = some sh ∧ sh.operandBytes = bs.length := by
  obtain ⟨⟨sh, hsh, hsize⟩, hlength⟩ := size_of_decode h
  simp only [List.length_cons, List.length_nil, hsize] at hlength
  exact ⟨sh, hsh, by omega⟩

theorem stepCommand_operandFault {s : State} {op : Byte} {sh : Shape} {a : Addr} {l : List Transaction}
    (hop : s.readAnswer s.pc = .value op) (hv : getFlag s.p .always = true) (hsh : shapeOf op = some sh)
    (h : fetchOperand sh (s.inStep op []) = .fault a .read (s.inStep op l)) :
    stepCommand s = .next (raiseMemoryFault a .read (s.inStep op l)) := by
  rw [stepCommand_known hop hv hsh, h, Result.finish]

/-- One request more of a STEP. -/
theorem State.inStep_record (s : State) (op : Byte) (l : List Transaction) (t : Transaction) :
    (s.inStep op l).record t = s.inStep op (l ++ [t]) := by
  simp [State.inStep, State.record]

theorem stepCommand_first_operand_fault {s : State} {op : Byte} {sh : Shape} (hop : s.readAnswer s.pc = .value op)
    (hv : getFlag s.p .always = true) (hsh : shapeOf op = some sh) (hbytes : sh.operandBytes ≠ 0)
    (hfault : (s.record (.read s.pc (.value op))).readAnswer (s.pc + 1) = .fault) :
    stepCommand s = .next (raiseMemoryFault (s.pc + 1) .read (s.inStep op [.read (s.pc + 1) .fault])) := by
  have hfetch := fetchOperand_first_fault (s := s.inStep op []) hbytes hfault
  rw [State.inStep_record] at hfetch
  exact stepCommand_operandFault hop hv hsh hfetch

theorem stepCommand_second_operand_fault {s : State} {op lo : Byte} {sh : Shape} (hop : s.readAnswer s.pc = .value op)
    (hv : getFlag s.p .always = true) (hsh : shapeOf op = some sh) (hbytes : sh.operandBytes = 2)
    (hlo : (s.record (.read s.pc (.value op))).readAnswer (s.pc + 1) = .value lo)
    (hhi : ((s.record (.read s.pc (.value op))).record (.read (s.pc + 1) (.value lo))).readAnswer (s.pc + 2) = .fault) :
    stepCommand s = .next (raiseMemoryFault (s.pc + 2) .read
      (s.inStep op [.read (s.pc + 1) (.value lo), .read (s.pc + 2) .fault])) := by
  have hfetch := fetchOperand_second_fault (s := s.inStep op []) hbytes hlo hhi
  rw [State.inStep_record, State.inStep_record] at hfetch
  exact stepCommand_operandFault hop hv hsh hfetch

/-- Settles O24: the format takes one operand byte or two, and the STEP ends at the one whose read faults. -/
theorem operandFetchFault : Obligations.OperandFetchFault := by
  rintro s op i ⟨hnext, hv⟩ hop
  refine ⟨fun hdec hfault => ?_, fun lo hdec hlo hhi => ?_⟩
  · obtain ⟨sh, hsh, hbytes⟩ : ∃ sh, shapeOf op = some sh ∧ sh.operandBytes ≠ 0 := by
      rcases hdec with h | h <;> obtain ⟨sh, hsh, hbytes⟩ := shapeOf_of_decode h
      · exact ⟨sh, hsh, by simp [hbytes]⟩
      · exact ⟨sh, hsh, by simp [hbytes]⟩
    have hstep := stepCommand_first_operand_fault (s := { s with commands := s.commands.tail }) hop hv hsh hbytes hfault
    exact ⟨_, (step_eq_stepCommand hnext).trans hstep, rfl, ⟨rfl, rfl, rfl, rfl⟩, rfl, rfl, rfl⟩
  · obtain ⟨sh, hsh, hbytes⟩ := shapeOf_of_decode hdec
    have hstep :=
      stepCommand_second_operand_fault (s := { s with commands := s.commands.tail }) hop hv hsh hbytes hlo hhi
    exact ⟨_, (step_eq_stepCommand hnext).trans hstep, rfl, ⟨rfl, rfl, rfl, rfl⟩, rfl, rfl, rfl⟩

/-! ## A MemoryFault has written no register (R132, R263) -/

/-- A load that ended with MemoryFault loaded nothing: one that loads ends with Continue. -/
theorem loadRegister_keeps_of_memoryFault {r : Reg} {m : Source} {s t : State} {a : Addr} {k : AccessKind}
    (h : loadRegister r m s = .next t) (ht : t.response = some (.step (.memoryFault a k))) :
    sameRegisters s t ∧ t.p = s.p := by
  have hread := resolveValue_readsOnly m s
  rcases loadRegister_next h with ⟨v, s', e, rfl⟩ | ⟨a', k', s', e, rfl⟩
  · cases ht
  · rw [e] at hread
    cases hread
    exact ⟨⟨rfl, rfl, rfl, rfl⟩, rfl⟩

/-- A store writes no register, whatever it comes to. -/
theorem storeRegister_keeps {r : Reg} {m : Dest} {s t : State} (h : storeRegister r m s = .next t) :
    sameRegisters s t ∧ t.p = s.p := by
  rcases memWrite_cases m.address (s.reg r) s with ⟨-, e⟩ | ⟨-, e⟩ | ⟨-, e⟩ <;>
    rcases storeRegister_next h with ⟨s', e', rfl⟩ | ⟨a, k, s', e', rfl⟩ <;> rw [e] at e' <;> cases e'
  · exact ⟨⟨rfl, rfl, rfl, rfl⟩, rfl⟩
  · exact ⟨⟨rfl, rfl, rfl, rfl⟩, rfl⟩

theorem exec_keeps_of_memoryFault {i : Instr} {s t : State} {a : Addr} {k : AccessKind}
    (h : exec i s = .next t) (ht : t.response = some (.step (.memoryFault a k))) :
    sameRegisters s t ∧ t.p = s.p := by
  cases exec_cases i s with
  | immediateLoad r v hi he => exact loadRegister_keeps_of_memoryFault (he.trans h) ht
  | memoryLoad r m ea hi hm he => exact loadRegister_keeps_of_memoryFault (he.trans h) ht
  | store r m hi he => exact storeRegister_keeps (he.trans h)
  | branch f e off he => rw [branch_next (he.trans h)] at ht; cases ht
  | flagOp f b hi he => rw [flagOp_next (he.trans h)] at ht; cases ht

/-- No outcome before the execution writes a register, and an instruction that faults writes none. -/
theorem stepCommand_keeps_of_memoryFault {s t : State} {a : Addr} {k : AccessKind} (h : stepCommand s = .next t)
    (ht : t.response = some (.step (.memoryFault a k))) : sameRegisters s t ∧ t.p = s.p := by
  cases stepCommand_cases s with
  | stuck a' ho => rw [ho] at h; cases h
  | fetchFault hr ho => rw [ho] at h; cases h; exact ⟨⟨rfl, rfl, rfl, rfl⟩, rfl⟩
  | corrupted op hr hv ho => rw [ho] at h; cases h; cases ht
  | unknown op hr hv hs ho => rw [ho] at h; cases h; cases ht
  | operandFault op a' l hr hv ho => rw [ho] at h; cases h; exact ⟨⟨rfl, rfl, rfl, rfl⟩, rfl⟩
  | run op i l hr hv ho => exact exec_keeps_of_memoryFault (s := s.inStep op l) (ho.symm.trans h) ht

/-- Settles O23: the STEP's fault is one of its fetches, or the one data request of the instruction. -/
theorem memoryFaultKeepsRegisters : Obligations.MemoryFaultKeepsRegisters := by
  intro s t a k hnext h ht
  rw [step_eq_stepCommand hnext] at h
  exact stepCommand_keeps_of_memoryFault (s := { s with commands := s.commands.tail }) h ht

theorem storeRegister_fault {r : Reg} {m : Dest} {s : State} (h : s.writeAnswer m.address (s.reg r) = .fault) :
    storeRegister r m s = .next (raiseMemoryFault m.address .write
      ((s.setMem (s.memAfterWrite m.address (s.reg r))).record (.write m.address (s.reg r) .fault))) := by
  rw [storeRegister, memWrite_fault h, Result.finish]

/-- The byte at the address of a write request is the old one or the one to be written (U5). -/
theorem State.byteAt_memAfterWrite_same (s : State) (a : Addr) (v : Byte) :
    (s.setMem (s.memAfterWrite a v)).byteAt a = s.byteAt a ∨ (s.setMem (s.memAfterWrite a v)).byteAt a = v := by
  rcases s.memAfterWrite_cases a v with e | e <;> rw [e]
  · exact .inl rfl
  · exact .inr (by rw [State.byteAt_setMem_write, if_pos rfl])

/-- Each of the six stores writes its register to its operand's address. -/
theorem exec_eq_storeRegister {i : Instr} {r : Reg} {ea : Addr}
    (hi : (i, r) ∈ [(Instr.staZp ea, Reg.a), (Instr.staAbs ea, Reg.a), (Instr.stxZp ea, Reg.x),
      (Instr.stxAbs ea, Reg.x), (Instr.styZp ea, Reg.y), (Instr.styAbs ea, Reg.y)]) :
    ∃ m : Dest, m.address = ea ∧ exec i = storeRegister r m := by
  simp only [List.mem_cons, Prod.mk.injEq, List.not_mem_nil, or_false] at hi
  rcases hi with ⟨rfl, rfl⟩ | ⟨rfl, rfl⟩ | ⟨rfl, rfl⟩ | ⟨rfl, rfl⟩ | ⟨rfl, rfl⟩ | ⟨rfl, rfl⟩
  · exact ⟨.zeroPage ea, rfl, rfl⟩
  · exact ⟨.absolute ea, rfl, rfl⟩
  · exact ⟨.zeroPage ea, rfl, rfl⟩
  · exact ⟨.absolute ea, rfl, rfl⟩
  · exact ⟨.zeroPage ea, rfl, rfl⟩
  · exact ⟨.absolute ea, rfl, rfl⟩

/-- Settles O37: the one write request is recorded, and its byte may or may not have landed. -/
theorem storeFaults : Obligations.StoreFaults := by
  intro i r ea s hi hfault
  obtain ⟨m, rfl, he⟩ := exec_eq_storeRegister hi
  refine ⟨_, (congrFun he s).trans (storeRegister_fault hfault), ⟨rfl, rfl, rfl, rfl⟩, rfl, fun b hb => ?_,
    s.byteAt_memAfterWrite_same m.address (s.reg r), rfl, rfl⟩
  exact s.byteAt_memAfterWrite_ne hb (s.reg r)

/-! ## Under FlatRAM every instruction completes (R73, R128) -/

/-- The instruction answers a next state with outcome Continue. -/
def Continues (o : Host.Outcome State Fault Refusal) : Prop :=
  ∃ t, o = .next t ∧ t.response = some (.step .continues)

theorem loadRegister_continues {m : Source} {s s' : State} {v : Byte} (h : resolveValue m s = .ok v s') (r : Reg) :
    Continues (loadRegister r m s) := by
  rw [loadRegister, h]
  exact ⟨_, rfl, rfl⟩

/-- The one data request of an instruction is to RAM, which answers it. -/
theorem exec_continues {i : Instr} {s : State} (hflat : s.regions = []) : Continues (exec i s) := by
  have hread (ea : Addr) := memRead_value (State.readAnswer_plain (.inl (State.kindAt_flatRam hflat ea)))
  cases exec_cases i s with
  | immediateLoad r v hi he => exact he ▸ loadRegister_continues rfl r
  | memoryLoad r m ea hi hm he =>
    rcases hm with rfl | rfl
    · exact he ▸ loadRegister_continues (m := .zeroPage ea) (hread ea) r
    · exact he ▸ loadRegister_continues (m := .absolute ea) (hread ea) r
  | store r m hi he => exact ⟨_, he.symm.trans (storeRegister_ram (State.kindAt_flatRam hflat _) r), rfl⟩
  | branch f e off he => exact ⟨_, he.symm, rfl⟩
  | flagOp f b hi he => exact ⟨_, he.symm, rfl⟩

/-- Settles O26: the STEP is the instruction run after its fetch, which leaves the memory map empty. -/
theorem flatRamStepContinues : Obligations.FlatRamStepContinues := by
  intro s i bs hready hflat hheld hdec
  rw [step_of_decode hready hheld hdec]
  exact exec_continues (s := s.fetched bs) hflat

/-! ## The response and the trace record of the last command have no effect (R46, R131) -/

/-- The response on the command port of the state a result carries replaced. -/
def Result.respond {α : Type} (q : Option Response) : Result α → Result α
  | .ok v s => .ok v (s.respond q)
  | .fault a k s => .fault a k (s.respond q)
  | .stuck f => .stuck f

/-- The memory's answer to a read does not depend on the response. -/
theorem memRead_respond (a : Addr) (s : State) (q : Option Response) :
    memRead a (s.respond q) = (memRead a s).respond q := by
  have hanswer : (s.respond q).readAnswer a = s.readAnswer a := rfl
  simp only [memRead, hanswer]
  cases s.readAnswer a <;> rfl

/-- Neither the memory's answer to a write nor what it stores depends on the response. -/
theorem memWrite_respond (a : Addr) (v : Byte) (s : State) (q : Option Response) :
    memWrite a v (s.respond q) = (memWrite a v s).respond q := by
  have hanswer : (s.respond q).writeAnswer a v = s.writeAnswer a v := rfl
  simp only [memWrite, hanswer]
  cases s.writeAnswer a v <;> rfl

theorem Result.andThen_respond {α β : Type} {f : α → State → Result β} {q : Option Response}
    (hf : ∀ v s, f v (s.respond q) = (f v s).respond q) (r : Result α) :
    (r.respond q).andThen f = (r.andThen f).respond q := by
  cases r with
  | ok v s => exact hf v s
  | fault a k s => rfl
  | stuck e => rfl

/-- If what follows a request does not depend on the response before it, neither does the whole: a MemoryFault
overwrites the response. -/
theorem Result.finish_respond {α : Type} {f : α → State → Host.Outcome State Fault Refusal} {q : Option Response}
    (hf : ∀ v s, f v (s.respond q) = f v s) (r : Result α) : (r.respond q).finish f = r.finish f := by
  cases r with
  | ok v s => exact hf v s
  | fault a k s => rfl
  | stuck e => rfl

theorem resolveValue_respond (m : Source) (s : State) (q : Option Response) :
    resolveValue m (s.respond q) = (resolveValue m s).respond q := by
  cases m with
  | immediate v => rfl
  | zeroPage ea => exact memRead_respond ea s q
  | absolute ea => exact memRead_respond ea s q

theorem fetchOperand_respond (sh : Shape) (s : State) (q : Option Response) :
    fetchOperand sh (s.respond q) = (fetchOperand sh s).respond q := by
  have one (make : Byte → Instr) :
      (memRead (s.pc + 1) (s.respond q)).andThen (fun v s' => .ok (make v) s') =
        ((memRead (s.pc + 1) s).andThen fun v s' => .ok (make v) s').respond q := by
    rw [memRead_respond]
    exact Result.andThen_respond (fun _ _ => rfl) _
  cases sh with
  | implied i => rfl
  | immediate make => exact one make
  | zeroPage make => exact one fun z => make (zext16 z)
  | relative make => exact one fun d => make (sext16 d)
  | absolute make =>
    have two : memRead16 (s.pc + 1) (s.respond q) = (memRead16 (s.pc + 1) s).respond q := by
      rw [memRead16, memRead_respond]
      refine Result.andThen_respond (fun lo t => ?_) _
      rw [memRead_respond]
      exact Result.andThen_respond (fun _ _ => rfl) _
    simp only [fetchOperand, State.respond_pc, two]
    exact Result.andThen_respond (fun _ _ => rfl) _

/-- Every instruction overwrites the response, and none reads it. -/
theorem exec_respond (i : Instr) (s : State) (q : Option Response) : exec i (s.respond q) = exec i s := by
  have hmeaning := exec_sharedMeaning i
  generalize exec i = meaning at hmeaning ⊢
  cases hmeaning with
  | load r m =>
    rw [loadRegister, resolveValue_respond]
    exact Result.finish_respond (fun _ _ => by cases r <;> rfl) _
  | store r m =>
    rw [storeRegister, State.reg_respond, memWrite_respond]
    exact Result.finish_respond (fun _ _ => rfl) _
  | branch f e off hf => rfl
  | flagOp f b => rfl

/-- A STEP overwrites both and reads neither, on every path. -/
theorem stepCommand_respond_emit (s : State) (q : Option Response) (tr : Option TraceRecord) :
    stepCommand ((s.respond q).emit tr) = stepCommand s := by
  generalize hu : (s.respond q).emit tr = u
  have hpc : u.pc = s.pc := by subst hu; rfl
  have hp : u.p = s.p := by subst hu; rfl
  have hanswer : u.readAnswer u.pc = s.readAnswer s.pc := by subst hu; rfl
  have hin (op : Byte) : u.inStep op [] = (s.inStep op []).respond q := by subst hu; rfl
  cases hr : s.readAnswer s.pc with
  | silent => rw [stepCommand_silent (hanswer.trans hr), stepCommand_silent hr, hpc]
  | fault =>
    rw [stepCommand_fetchFault (hanswer.trans hr), stepCommand_fetchFault hr]
    subst hu; rfl
  | value op =>
    cases hv : getFlag s.p .always with
    | false => rw [stepCommand_corrupted (hanswer.trans hr) (hp ▸ hv), stepCommand_corrupted hr hv, hin]; rfl
    | true =>
      cases hsh : shapeOf op with
      | none => rw [stepCommand_unknown (hanswer.trans hr) (hp ▸ hv) hsh, stepCommand_unknown hr hv hsh, hin]; rfl
      | some sh =>
        rw [stepCommand_known (hanswer.trans hr) (hp ▸ hv) hsh, stepCommand_known hr hv hsh, hin,
          fetchOperand_respond]
        exact Result.finish_respond (fun i t => exec_respond i t q) _

/-- Settles O27: the STEP taken off the list is the same, and does not see the two fields. -/
theorem noHaltLatch : Obligations.NoHaltLatch := by
  intro s r tr hnext
  have hcommands : { s with response := r, trace := tr }.commands = s.commands := rfl
  have hnext' := (nextCommand_fst_congr hcommands).trans hnext
  rw [step_eq_stepCommand hnext, step_eq_stepCommand hnext']
  exact stepCommand_respond_emit { s with commands := s.commands.tail } r tr

end Sys2Proof.Machine
end

section
/-! PROOFS. 42_load_store: the N/Z generator (O7), the nine loads (O30 to O34) and the six stores (O35, O36, O38).
(O37, the stores whose write faults, is settled in the part on 40_step_cycle.) -/

namespace Sys2Proof.Machine

/-! ## The N/Z generator (R170) -/

/-- N is bit 7 of the value, which is 1 exactly from 0x80 on. -/
theorem getFlag_nz_n_eq_decide (v p : Byte) : getFlag (nz v p) .n = decide (128 ≤ v.toNat) := by
  rw [getFlag_nz_n, ← BitVec.msb_eq_decide v, BitVec.msb_eq_getLsbD_last]

theorem getFlag_nz_z_eq_decide (v p : Byte) : getFlag (nz v p) .z = decide (v = 0) := by
  rw [getFlag_nz_z, beq_eq_decide]

/-- Settles O7: bit 7 of a byte is set from 128 on, and a byte is 0 exactly if its number is. -/
theorem nzGenerator : Obligations.NzGenerator := by
  intro v p
  refine ⟨getFlag_nz_n_eq_decide v p, ?_, fun f hn hz => getFlag_nz_ne hn hz v p⟩
  rw [getFlag_nz_z_eq_decide]
  exact decide_eq_decide.2 (BitVec.toNat_inj (y := 0)).symm

/-! ## Which load each of the nine instructions is (R173-R181) -/

theorem exec_immediateLoads (v : Byte) :
    ∀ p ∈ [(Instr.ldaImm v, Reg.a), (Instr.ldxImm v, Reg.x), (Instr.ldyImm v, Reg.y)],
      exec p.1 = loadRegister p.2 (.immediate v) := by
  simp only [List.forall_mem_cons]
  exact ⟨rfl, rfl, rfl, List.forall_mem_nil _⟩

theorem exec_zeroPageLoads (ea : Addr) :
    ∀ p ∈ [(Instr.ldaZp ea, Reg.a), (Instr.ldxZp ea, Reg.x), (Instr.ldyZp ea, Reg.y)],
      exec p.1 = loadRegister p.2 (.zeroPage ea) := by
  simp only [List.forall_mem_cons]
  exact ⟨rfl, rfl, rfl, List.forall_mem_nil _⟩

theorem exec_absoluteLoads (ea : Addr) :
    ∀ p ∈ [(Instr.ldaAbs ea, Reg.a), (Instr.ldxAbs ea, Reg.x), (Instr.ldyAbs ea, Reg.y)],
      exec p.1 = loadRegister p.2 (.absolute ea) := by
  simp only [List.forall_mem_cons]
  exact ⟨rfl, rfl, rfl, List.forall_mem_nil _⟩

/-- All nine, with the register each of them loads. -/
theorem exec_loads (v : Byte) (ea : Addr) :
    ∀ p ∈ [(Instr.ldaImm v, Reg.a), (Instr.ldaZp ea, Reg.a), (Instr.ldaAbs ea, Reg.a),
        (Instr.ldxImm v, Reg.x), (Instr.ldxZp ea, Reg.x), (Instr.ldxAbs ea, Reg.x),
        (Instr.ldyImm v, Reg.y), (Instr.ldyZp ea, Reg.y), (Instr.ldyAbs ea, Reg.y)],
      ∃ m, exec p.1 = loadRegister p.2 m := by
  simp only [List.forall_mem_cons]
  exact ⟨⟨.immediate v, rfl⟩, ⟨.zeroPage ea, rfl⟩, ⟨.absolute ea, rfl⟩, ⟨.immediate v, rfl⟩, ⟨.zeroPage ea, rfl⟩,
    ⟨.absolute ea, rfl⟩, ⟨.immediate v, rfl⟩, ⟨.zeroPage ea, rfl⟩, ⟨.absolute ea, rfl⟩, List.forall_mem_nil _⟩

/-- Each of the six loads from memory finds its value by one read of its operand's address. -/
theorem exec_memoryLoads (ea : Addr) :
    ∀ i ∈ [Instr.ldaZp ea, .ldxZp ea, .ldyZp ea, .ldaAbs ea, .ldxAbs ea, .ldyAbs ea],
      ∃ r m, exec i = loadRegister r m ∧ resolveValue m = memRead ea := by
  simp only [List.forall_mem_cons]
  exact ⟨⟨.a, .zeroPage ea, rfl, rfl⟩, ⟨.x, .zeroPage ea, rfl, rfl⟩, ⟨.y, .zeroPage ea, rfl, rfl⟩,
    ⟨.a, .absolute ea, rfl, rfl⟩, ⟨.x, .absolute ea, rfl, rfl⟩, ⟨.y, .absolute ea, rfl, rfl⟩, List.forall_mem_nil _⟩

/-! ## What a load leaves unchanged, whatever it comes to (R171) -/

@[simp] theorem State.reg_withLog (s : State) (q : Reg) (log : List Transaction) :
    ({ s with log := log } : State).reg q = s.reg q := by
  cases q <;> rfl

/-- A load writes its register, N and Z, PC and the record of requests, and a load that faults still less. -/
theorem loadRegister_frame {r : Reg} {m : Source} {s t : State} (h : loadRegister r m s = .next t) :
    (∀ q, q ≠ r → t.reg q = s.reg q) ∧ t.sp = s.sp ∧ sameFlagsExcept [.n, .z] s t ∧ t.mem = s.mem ∧
      sameSurroundings s t := by
  obtain ⟨hregions, hcommands⟩ := loadRegister_sameMapAndCommands h
  have hsurroundings : sameSurroundings s t := ⟨hregions, hcommands, loadRegister_trace h⟩
  have hread := resolveValue_readsOnly m s
  rcases loadRegister_next h with ⟨v, s', e, rfl⟩ | ⟨a, k, s', e, rfl⟩ <;> rw [e] at hread <;> cases hread
  · refine ⟨fun q hq => by simp [loadValue, State.reg_setReg_ne hq], by simp [loadValue], fun f hf => ?_,
      by simp [loadValue], hsurroundings⟩
    simp only [List.mem_cons, List.not_mem_nil, or_false, not_or] at hf
    obtain ⟨hn, hz⟩ := hf
    exact getFlag_nz_ne hn hz v s.p
  · exact ⟨fun q _ => by cases q <;> rfl, rfl, fun _ _ => rfl, rfl, hsurroundings⟩

/-- Settles O34: each of the nine is a load of its register, and no load does more than `loadRegister_frame` says. -/
theorem loadFrame : Obligations.LoadFrame := by
  intro i r v ea s t hi h
  obtain ⟨m, he⟩ := exec_loads v ea (i, r) hi
  obtain ⟨hregs, hsp, hflags, hmem, hsurroundings⟩ := loadRegister_frame (he ▸ h)
  exact ⟨hregs, hsp, hflags, State.byteAt_congr hmem, hsurroundings⟩

/-! ## A load whose value is read (R171) -/

/-- `t` is the state after `v` was loaded into `r` in state `s`, with PC and the record of requests as given. -/
def State.Loaded (s : State) (r : Reg) (v : Byte) (pc : Addr) (log : List Transaction) (t : State) : Prop :=
  t.reg r = v ∧ (∀ q, q ≠ r → t.reg q = s.reg q) ∧ t.sp = s.sp ∧
    getFlag t.p .n = decide (128 ≤ v.toNat) ∧ getFlag t.p .z = decide (v = 0) ∧ sameFlagsExcept [.n, .z] s t ∧
    t.pc = pc ∧ t.mem = s.mem ∧ t.log = log ∧ sameSurroundings s t ∧ t.response = some (.step .continues)

/-- A load whose value is found, whatever requests that took, completes. -/
theorem loadRegister_loaded {m : Source} {s : State} {v : Byte} {log : List Transaction}
    (h : resolveValue m s = .ok v { s with log := log }) (r : Reg) :
    ∃ t, loadRegister r m s = .next t ∧ s.Loaded r v (s.pc + m.length) log t := by
  have hload : loadRegister r m s = .next (raise .continues (loadValue r m.length v { s with log := log })) := by
    rw [loadRegister, h]
    rfl
  obtain ⟨hregs, hsp, hflags, hmem, hsurroundings⟩ := loadRegister_frame hload
  exact ⟨_, hload, by simp [loadValue], hregs, hsp, getFlag_nz_n_eq_decide v s.p, getFlag_nz_z_eq_decide v s.p, hflags,
    by simp [loadValue], hmem, by simp [loadValue], hsurroundings, rfl⟩

/-- Settles O30: the value is the operand byte, found without a request. -/
theorem immediateLoads : Obligations.ImmediateLoads := by
  intro i r v s hi
  have he : exec i = loadRegister r (.immediate v) := exec_immediateLoads v (i, r) hi
  rw [he]
  exact loadRegister_loaded (m := .immediate v) rfl r

/-- Settles O31: the value is what the one read of the operand's address answers. -/
theorem zeroPageLoads : Obligations.ZeroPageLoads := by
  intro i r ea v s hi hread
  have he : exec i = loadRegister r (.zeroPage ea) := exec_zeroPageLoads ea (i, r) hi
  rw [he]
  exact loadRegister_loaded (m := .zeroPage ea) (memRead_value hread) r

/-- Settles O32: as in page 0, with the longer instruction. -/
theorem absoluteLoads : Obligations.AbsoluteLoads := by
  intro i r ea v s hi hread
  have he : exec i = loadRegister r (.absolute ea) := exec_absoluteLoads ea (i, r) hi
  rw [he]
  exact loadRegister_loaded (m := .absolute ea) (memRead_value hread) r

/-! ## A load whose data read faults (R132, R263) -/

theorem loadRegister_fault {m : Source} {ea : Addr} {s : State} (hm : resolveValue m = memRead ea)
    (h : s.readAnswer ea = .fault) (r : Reg) :
    loadRegister r m s = .next (raiseMemoryFault ea .read (s.record (.read ea .fault))) := by
  rw [loadRegister, hm, memRead_fault h, Result.finish]

/-- Settles O33: the one read is recorded with its fault, and the step ends there. -/
theorem loadFaults : Obligations.LoadFaults := by
  intro i ea s hi hfault
  obtain ⟨r, m, he, hm⟩ := exec_memoryLoads ea i hi
  exact ⟨_, (congrFun he s).trans (loadRegister_fault hm hfault r), ⟨rfl, rfl, rfl, rfl⟩, rfl, rfl, rfl, rfl⟩

/-! ## What a store leaves unchanged, whatever it comes to (R172) -/

theorem storeRegister_sameExceptByte {r : Reg} {m : Dest} {s t : State} (h : storeRegister r m s = .next t) :
    sameRegisters s t ∧ t.p = s.p ∧ sameMemoryExcept m.address s t ∧ sameSurroundings s t := by
  obtain ⟨hregs, hp⟩ := storeRegister_keeps h
  obtain ⟨-, -, hmem⟩ := storeRegister_frame h
  obtain ⟨hregions, hcommands⟩ := storeRegister_sameMapAndCommands h
  refine ⟨hregs, hp, fun b hb => ?_, hregions, hcommands, storeRegister_trace h⟩
  rw [← s.byteAt_memAfterWrite_ne hb (s.reg r)]
  exact State.byteAt_congr hmem b

/-- Settles O38: each of the six is a store to its operand's address. -/
theorem storeFrame : Obligations.StoreFrame := by
  intro i ea s t hi h
  obtain ⟨⟨i, r⟩, hir, rfl⟩ := List.exists_of_mem_map (f := Prod.fst) (l := [(Instr.staZp ea, Reg.a), (.staAbs ea, .a),
    (.stxZp ea, .x), (.stxAbs ea, .x), (.styZp ea, .y), (.styAbs ea, .y)]) hi
  obtain ⟨m, rfl, he⟩ := exec_eq_storeRegister hir
  exact storeRegister_sameExceptByte (he ▸ h)

/-! ## A store whose write is completed (R62, R172) -/

theorem State.memAfterWrite_ram {s : State} {a : Addr} (h : s.kindAt a = .ram) (v : Byte) :
    s.memAfterWrite a v = s.mem.write a.toNat v := by
  simp [State.memAfterWrite, State.writeAnswer, h]

theorem State.memAfterWrite_readOnly {s : State} {a : Addr} (h : s.kindAt a = .readOnly) (v : Byte) :
    s.memAfterWrite a v = s.mem := by
  simp [State.memAfterWrite, State.writeAnswer, h]

/-- `t` is the state after a completed store of `r` to `m` in state `s`. -/
def State.Stored (s : State) (r : Reg) (m : Dest) (t : State) : Prop :=
  (s.kindAt m.address = .ram → t.byteAt m.address = s.reg r) ∧
    (s.kindAt m.address = .readOnly → t.byteAt m.address = s.byteAt m.address) ∧ sameMemoryExcept m.address s t ∧
    sameRegisters s t ∧ t.p = s.p ∧ t.pc = s.pc + m.length ∧
    t.log = s.log ++ [.write m.address (s.reg r) .completed] ∧ sameSurroundings s t ∧
    t.response = some (.step .continues)

theorem storeRegister_stored {r : Reg} {m : Dest} {s : State} (h : s.writeAnswer m.address (s.reg r) = .completed) :
    ∃ t, storeRegister r m s = .next t ∧ s.Stored r m t := by
  have hstore : storeRegister r m s = .next (raise .continues
      (((s.setMem (s.memAfterWrite m.address (s.reg r))).record (.write m.address (s.reg r) .completed)).setPc
        (s.pc + m.length))) := by
    rw [storeRegister, memWrite_completed h]
    rfl
  obtain ⟨hregs, hp, hothers, hsurroundings⟩ := storeRegister_sameExceptByte hstore
  refine ⟨_, hstore, fun hram => ?_, fun hro => ?_, hothers, hregs, hp, rfl, rfl, hsurroundings, rfl⟩
  · rw [State.memAfterWrite_ram hram]
    exact s.byteAt_poke_same m.address (s.reg r)
  · rw [State.memAfterWrite_readOnly hro]
    rfl

theorem exec_zeroPageStores (ea : Addr) :
    ∀ p ∈ [(Instr.staZp ea, Reg.a), (Instr.stxZp ea, Reg.x), (Instr.styZp ea, Reg.y)],
      exec p.1 = storeRegister p.2 (.zeroPage ea) := by
  simp only [List.forall_mem_cons]
  exact ⟨rfl, rfl, rfl, List.forall_mem_nil _⟩

theorem exec_absoluteStores (ea : Addr) :
    ∀ p ∈ [(Instr.staAbs ea, Reg.a), (Instr.stxAbs ea, Reg.x), (Instr.styAbs ea, Reg.y)],
      exec p.1 = storeRegister p.2 (.absolute ea) := by
  simp only [List.forall_mem_cons]
  exact ⟨rfl, rfl, rfl, List.forall_mem_nil _⟩

/-- Settles O35: each of the three is a store to its operand's address, and its write is completed. -/
theorem zeroPageStores : Obligations.ZeroPageStores := by
  intro i r ea s hi hwrite
  have he : exec i = storeRegister r (.zeroPage ea) := exec_zeroPageStores ea (i, r) hi
  rw [he]
  exact storeRegister_stored (m := .zeroPage ea) hwrite

/-- Settles O36: as in page 0, with the longer instruction. -/
theorem absoluteStores : Obligations.AbsoluteStores := by
  intro i r ea s hi hwrite
  have he : exec i = storeRegister r (.absolute ea) := exec_absoluteStores ea (i, r) hi
  rw [he]
  exact storeRegister_stored (m := .absolute ea) hwrite

end Sys2Proof.Machine
end

section
/-! PROOFS. 43_branch: the eight branches (O39, O40), BVS and BVC after CLV (O11), the targets a taken branch can reach
(O41), and the branch that comes back to itself, as one STEP (O42) and as a run that never ends (O60). -/

namespace Sys2Proof.Machine

/-! ## The eight branches (R203-R210) -/

/-- A branch: its opcode, the instruction of each offset, and the flag value it is taken on. -/
structure BranchRow where
  opcode : Byte
  make : Addr → Instr
  flag : Flag
  expected : Bool

/-- The eight branches, each flag tested for 0 and for 1. -/
def branchRows : List BranchRow :=
  [⟨0x10, .bpl, .n, false⟩, ⟨0x30, .bmi, .n, true⟩, ⟨0x50, .bvc, .v, false⟩, ⟨0x70, .bvs, .v, true⟩,
    ⟨0x90, .bcc, .c, false⟩, ⟨0xB0, .bcs, .c, true⟩, ⟨0xD0, .bne, .z, false⟩, ⟨0xF0, .beq, .z, true⟩]

/-- The decoder makes this branch of its opcode and one offset byte. -/
theorem shapeOf_branchRow : ∀ row ∈ branchRows, shapeOf row.opcode = some (.relative row.make) := by
  simp only [branchRows, List.forall_mem_cons]
  exact ⟨rfl, rfl, rfl, rfl, rfl, rfl, rfl, rfl, List.forall_mem_nil _⟩

/-- Each of the eight is the shared meaning with its own flag and expected value. -/
theorem exec_branchRow (off : Addr) :
    ∀ row ∈ branchRows, exec (row.make off) = branch row.flag row.expected off := by
  simp only [branchRows, List.forall_mem_cons]
  exact ⟨rfl, rfl, rfl, rfl, rfl, rfl, rfl, rfl, List.forall_mem_nil _⟩

/-! ## What a branch does and leaves unchanged (R201, R202, R212) -/

theorem branch_taken {f : Flag} {e : Bool} {s : State} (h : getFlag s.p f = e) (off : Addr) :
    branch f e off s = .next (raise .continues (s.setPc (takenTarget s.pc off))) := by
  rw [branch, if_pos h, complete]

theorem branch_notTaken {f : Flag} {e : Bool} {s : State} (h : getFlag s.p f ≠ e) (off : Addr) :
    branch f e off s = .next (raise .continues (s.setPc (s.pc + 2))) := by
  rw [branch, if_neg h, complete]

/-- A branch writes PC and answers Continue, taken or not. -/
theorem branch_frame {f : Flag} {e : Bool} {off : Addr} {s t : State} (h : branch f e off s = .next t) :
    sameRegisters s t ∧ t.p = s.p ∧ t.mem = s.mem ∧ t.log = s.log ∧ sameSurroundings s t ∧
      t.response = some (.step .continues) := by
  rw [branch_next h]
  exact ⟨⟨rfl, rfl, rfl, rfl⟩, rfl, rfl, rfl, ⟨rfl, rfl, rfl⟩, rfl⟩

/-- Settles O39: the flag decides between the two ends of the shared meaning, and the rest is its frame. -/
theorem branches : Obligations.Branches := by
  intro i f expected off s hi
  obtain ⟨row, hrow, hfields⟩ :=
    List.exists_of_mem_map (f := fun row : BranchRow => (row.make off, row.flag, row.expected)) (l := branchRows) hi
  cases hfields
  rw [exec_branchRow off row hrow]
  by_cases h : getFlag s.p row.flag = row.expected
  · exact ⟨_, branch_taken h off, fun _ => rfl, fun hne => absurd h hne, branch_frame (branch_taken h off)⟩
  · exact ⟨_, branch_notTaken h off, fun heq => absurd heq h, fun _ => rfl, branch_frame (branch_notTaken h off)⟩

/-- Settles O40: the frame of the shared meaning. -/
theorem branchFrame : Obligations.BranchFrame := by
  intro i off s t hi h
  obtain ⟨row, hrow, rfl⟩ := List.exists_of_mem_map (f := fun row : BranchRow => row.make off) (l := branchRows) hi
  obtain ⟨hregs, hp, hmem, hlog, hsurroundings, -⟩ := branch_frame (exec_branchRow off row hrow ▸ h)
  exact ⟨hregs, hp, State.byteAt_congr hmem, hlog, hsurroundings⟩

/-- Settles O11: CLV writes a 1 into V (R235), on which BVS is taken and BVC is not. -/
theorem clvThenOverflowBranches : Obligations.ClvThenOverflowBranches := by
  intro off s t h
  have hv : getFlag t.p .v = true := by
    rw [flagOp_next h]
    exact getFlag_setFlag_same s.p .v true
  exact ⟨⟨_, branch_taken hv off, rfl⟩, ⟨_, branch_notTaken (e := false) (by simp [hv]) off, rfl⟩⟩

/-! ## The targets of a taken branch (R201, R211) -/

/-- The target is as far from the opcode as the offset is, and the opcode byte further. -/
theorem takenTarget_eq_add {off d : Addr} (h : 1 + off = d) (op : Addr) : takenTarget op off = op + d := by
  rw [takenTarget, BitVec.add_assoc, h]

/-- An offset moved up by 128 is a byte again, its sign bit flipped. -/
theorem sext16_add_128 (d : Byte) : sext16 d + 128 = zext16 (d + 0x80) := by
  revert d
  decide

/-- Counted from the lowest target, op - 127, the targets of the 256 offset bytes are the 256 bytes. -/
theorem takenTarget_sub_lowest (op : Addr) (d : Byte) : takenTarget op (sext16 d) - (op - 127) = zext16 (d + 0x80) := by
  rw [← sext16_add_128, takenTarget]
  ring

/-- The reachable targets: 256 addresses from op - 127 on. -/
theorem exists_takenTarget_eq_iff (op target : Addr) :
    (∃ d, takenTarget op (sext16 d) = target) ↔ (target - (op - 127)).toNat < 256 := by
  constructor
  · rintro ⟨d, rfl⟩
    rw [takenTarget_sub_lowest, zext16, BitVec.toNat_setWidth_of_le (by decide)]
    exact (d + 0x80).isLt
  · intro h
    have hbyte : inZeroPage (target - (op - 127)) = true := decide_eq_true h
    have hdistance := takenTarget_sub_lowest op (loByte (target - (op - 127)) - 0x80)
    rw [BitVec.sub_add_cancel, zext16_loByte hbyte] at hdistance
    exact ⟨_, sub_left_injective hdistance⟩

/-- A taken branch with offset byte 0xFF goes to its own opcode. -/
theorem takenTarget_sext16_FF (op : Addr) : takenTarget op (sext16 0xFF) = op :=
  (takenTarget_eq_add (d := 0) (by decide) op).trans (BitVec.add_zero op)

/-- Settles O41: the distances of the corner offsets are computed, and the targets are an interval. -/
theorem branchTargets : Obligations.BranchTargets := by
  intro op
  exact ⟨takenTarget_eq_add (by decide) op, takenTarget_eq_add (by decide) op, takenTarget_eq_add (by decide) op,
    takenTarget_eq_add (by decide) op,
    (takenTarget_eq_add (d := -127) (by decide) op).trans (BitVec.sub_eq_add_neg op 127).symm,
    (takenTarget_eq_add (d := -1) (by decide) op).trans (BitVec.sub_eq_add_neg op 1).symm,
    takenTarget_sext16_FF op, exists_takenTarget_eq_iff op⟩

/-! ## A branch to itself: one STEP (R211, test program P6) -/

/-- The branch stands at PC in plain memory with offset byte 0xFF, and the flag has the value it is taken on. -/
def State.AtSelfBranch (s : State) (row : BranchRow) : Prop :=
  s.holds s.pc [row.opcode, 0xFF] ∧ getFlag s.p row.flag = row.expected

/-- The STEP leaves the state in which the branch was executed: PC is written with the value it had. -/
theorem step_atSelfBranch {s : State} {row : BranchRow} (hrow : row ∈ branchRows) (hready : s.stepReady)
    (hat : s.AtSelfBranch row) : step s = .next (raise .continues (s.fetched [row.opcode, 0xFF])) := by
  obtain ⟨hheld, hflag⟩ := hat
  have hdec : decode [row.opcode, 0xFF] = .instr (row.make (sext16 0xFF)) [] :=
    decode_of_assemble (shapeOf_branchRow row hrow) rfl
  have htaken : getFlag (s.fetched [row.opcode, 0xFF]).p row.flag = row.expected := hflag
  rw [step_of_decode hready hheld hdec, exec_branchRow _ row hrow, branch_taken htaken, takenTarget_sext16_FF]
  rfl

/-- The branch is still there, to be taken again. -/
theorem State.AtSelfBranch.fetched {s : State} {row : BranchRow} (h : s.AtSelfBranch row) (bs : List Byte) :
    (raise .continues (s.fetched bs)).AtSelfBranch row := by
  obtain ⟨hheld, hflag⟩ := h
  exact ⟨State.holds_congr hheld rfl rfl, hflag⟩

/-- An opcode listed with its flag and expected value, as in O42 and O60, is a row's. -/
theorem exists_branchRow {op : Byte} {f : Flag} {e : Bool}
    (h : (op, f, e) ∈ branchRows.map fun row => (row.opcode, row.flag, row.expected)) :
    ∃ row ∈ branchRows, row.opcode = op ∧ row.flag = f ∧ row.expected = e := by
  simpa using h

/-- Settles O42: the STEP fetched the two bytes, took itself off the host's list and changed nothing else. -/
theorem selfBranchLoops : Obligations.SelfBranchLoops := by
  intro s t op f expected hbranch hready hheld hflag h
  obtain ⟨row, hrow, rfl, rfl, rfl⟩ := exists_branchRow hbranch
  have hat : s.AtSelfBranch row := ⟨hheld, hflag⟩
  rw [step_atSelfBranch hrow hready hat] at h
  cases h
  obtain ⟨hheld', hflag'⟩ := hat.fetched [row.opcode, 0xFF]
  obtain ⟨-, halways⟩ := hready
  exact ⟨rfl, hheld', hflag', halways, rfl, rfl⟩

/-! ## A branch to itself: the run (R315) -/

/-- The host has nothing but STEPs to issue and the state passes validation. -/
def State.OnlySteps (s : State) : Prop := (∀ c ∈ s.commands, c = .step) ∧ getFlag s.p .always = true

/-- The next command is a STEP, listed or issued by the host on its own. -/
theorem State.OnlySteps.stepReady {s : State} (h : s.OnlySteps) : s.stepReady := by
  obtain ⟨hcommands, halways⟩ := h
  refine ⟨?_, halways⟩
  unfold nextCommand
  split
  · rfl
  · rename_i c rest hcs
    exact hcommands c (by simp [hcs])

/-- The run's invariant: every command was answered, none with a terminal outcome, and the branch at `pc` is next. -/
structure Run.Loops (row : BranchRow) (pc : Addr) (r : Run) : Prop where
  answered : r.stuck = false
  noTerminal : r.terminals = []
  pc_eq : r.state.pc = pc
  onlySteps : r.state.OnlySteps
  atBranch : r.state.AtSelfBranch row

theorem Run.Loops.next {row : BranchRow} {pc : Addr} {r : Run} (hrow : row ∈ branchRows) (h : r.Loops row pc) :
    r.next.Loops row pc := by
  obtain ⟨hanswered, hnone, hpc, honly, hat⟩ := h
  rw [Run.next_of_step hanswered (step_atSelfBranch hrow honly.stepReady hat)]
  obtain ⟨hcommands, halways⟩ := honly
  exact {
    answered := hanswered
    noTerminal := by rw [hnone, State.newTerminals_step (o := .continues) rfl]; rfl
    pc_eq := hpc
    onlySteps := ⟨fun c hc => hcommands c (List.mem_of_mem_tail hc), halways⟩
    atBranch := hat.fetched _ }

theorem Run.Loops.after {row : BranchRow} {pc : Addr} {r : Run} (hrow : row ∈ branchRows) (h : r.Loops row pc)
    (n : Nat) : (r.after n).Loops row pc := by
  induction n with
  | zero => exact h
  | succ n ih => exact ih.next hrow

/-- Settles O60: the run begins in the loop's invariant and every command keeps it. -/
theorem selfBranchHangs : Obligations.SelfBranchHangs := by
  intro s op f expected hbranch hcommands halways hheld hflag
  obtain ⟨row, hrow, rfl, rfl, rfl⟩ := exists_branchRow hbranch
  have hstart : (Run.start s).Loops row s.pc := ⟨rfl, rfl, rfl, ⟨hcommands, halways⟩, hheld, hflag⟩
  have hloops := hstart.after hrow
  exact ⟨fun n => (hloops n).noTerminal, fun n => ⟨(hloops n).answered, (hloops n).pc_eq⟩⟩

end Sys2Proof.Machine
end

section
/-! PROOFS. 44_flag_ops: what the seven flag ops do (O43) and what they leave unchanged (O44). -/

namespace Sys2Proof.Machine

/-! ## The seven flag ops (R231-R237) -/

/-- The flag ops, each with its flag and the value written into it. -/
def flagOpRows : List (Instr × Flag × Bool) :=
  [(.clc, .c, false), (.sec, .c, true), (.cli, .i, false), (.sei, .i, true), (.clv, .v, true), (.cld, .d, false),
    (.sed, .d, true)]

/-- Each of the seven is the shared meaning with its own flag and value. -/
theorem exec_flagOpRow : ∀ row ∈ flagOpRows, exec row.1 = flagOp row.2.1 row.2.2 := by
  simp only [flagOpRows, List.forall_mem_cons]
  exact ⟨rfl, rfl, rfl, rfl, rfl, rfl, rfl, List.forall_mem_nil _⟩

/-! ## What a flag op does and leaves unchanged (R230) -/

/-- The next state of a flag op differs in its flag, PC and the response. -/
theorem flagOp_effect {f : Flag} {b : Bool} {s t : State} (h : flagOp f b s = .next t) :
    getFlag t.p f = b ∧ sameFlagsExcept [f] s t ∧ t.pc = s.pc + 1 ∧ sameRegisters s t ∧ t.mem = s.mem ∧
      t.log = s.log ∧ sameSurroundings s t ∧ t.response = some (.step .continues) := by
  rw [flagOp_next h]
  have hothers (g : Flag) (hg : g ∉ [f]) : getFlag (setFlag s.p f b) g = getFlag s.p g :=
    getFlag_setFlag_ne (List.ne_of_not_mem_cons hg) s.p b
  exact ⟨getFlag_setFlag_same s.p f b, hothers, rfl, ⟨rfl, rfl, rfl, rfl⟩, rfl, rfl, ⟨rfl, rfl, rfl⟩, rfl⟩

/-- Settles O43: the shared meaning answers in every state, and the rest is its effect. -/
theorem flagOps : Obligations.FlagOps := by
  intro i f b s hi
  have he : exec i = flagOp f b := exec_flagOpRow (i, f, b) hi
  rw [he]
  exact ⟨_, rfl, flagOp_effect rfl⟩

/-- Settles O44: the frame in the shared meaning's effect, whatever the value written. -/
theorem flagOpFrame : Obligations.FlagOpFrame := by
  intro i f s t hi h
  obtain ⟨row, hrow, hfields⟩ :=
    List.exists_of_mem_map (f := fun row : Instr × Flag × Bool => (row.1, row.2.1)) (l := flagOpRows) hi
  cases hfields
  obtain ⟨-, hflags, -, hregs, hmem, hlog, hsurroundings, -⟩ := flagOp_effect (exec_flagOpRow row hrow ▸ h)
  exact ⟨hflags, hregs, State.byteAt_congr hmem, hlog, hsurroundings⟩

end Sys2Proof.Machine
end

section
/-! PROOFS. 60_exceptions: the trace record of a STEP (O20) and the two snapshot commands (O55, O56). -/

namespace Sys2Proof.Machine

/-! ## The trace record (R285) -/

/-- A STEP whose opcode fetch faults puts out no trace record (R121). -/
theorem step_trace_of_fetchFault {s t : State} (hnext : (nextCommand s).1 = .step)
    (hfault : s.readAnswer s.pc = .fault) (h : step s = .next t) : t.trace = none := by
  obtain ⟨-, hstep⟩ := stepFetchesOpcode s hnext
  cases (hstep hfault).symm.trans h
  rfl

/-- Settles O20: the two answers the opcode fetch can get; `traceRecord` takes every value from the state before. -/
theorem stepEmitsTrace : Obligations.StepEmitsTrace := by
  intro s t hnext h
  refine ⟨fun op hop => ?_, fun hfault => step_trace_of_fetchFault hnext hfault h⟩
  exact ⟨traceRecord s op, step_trace hnext hop h, rfl, rfl, rfl, rfl, rfl, rfl, rfl, rfl, rfl⟩

/-! ## The snapshot commands (R280, R281) -/

/-- The command at the head of the host's list is taken off it and carried out. -/
theorem step_eq_runCommand {s : State} {c : Command} {rest : List Command} (h : s.commands = c :: rest) :
    step s = runCommand c { s with commands := rest } := by
  simp only [step, nextCommand, h]

theorem step_snapshotLoad {s : State} {r : Snapshot} {rest : List Command} (h : s.commands = .snapshotLoad r :: rest) :
    step s = .next (respondOnly none ({ s with commands := rest }.load r)) :=
  step_eq_runCommand h

theorem step_snapshotRead {s : State} {rest : List Command} (h : s.commands = .snapshotRead :: rest) :
    step s = .next (respondOnly (some (.snapshot s.snapshot)) { s with commands := rest }) :=
  step_eq_runCommand h

/-- Settles O55: the state SNAPSHOT_LOAD answers, field by field. -/
theorem snapshotLoadVerbatim : Obligations.SnapshotLoadVerbatim := by
  intro s r rest h
  exact ⟨_, step_snapshotLoad h, rfl, rfl, rfl, rfl, rfl, rfl, rfl, rfl, rfl⟩

/-- Settles O56: what is read are the six fields of the state, and those are what the load gives back. -/
theorem snapshotRoundTrip : Obligations.SnapshotRoundTrip := by
  intro s u rest rest' hread
  refine ⟨_, s.snapshot, step_snapshotRead hread, rfl, rfl, rfl, rfl, fun hload => ?_⟩
  exact ⟨_, step_snapshotLoad hload, rfl⟩

end Sys2Proof.Machine
end

section
/-! PROOFS. 70_reset: POWER_ON (O48, O50), RESET (O51, O52), validation (O53, O54), that every command answers where no
device stands in the memory map (O28), and how a run ends (O29). -/

namespace Sys2Proof.Machine

/-! ## Validation (R307, R308) -/

/-- Settles O53: bit 5 is the Always flag, and the two values it can have. -/
theorem validateOnlyAlways : Obligations.ValidateOnlyAlways := by
  intro s
  have hbit : s.p.getLsbD 5 = getFlag s.p .always := rfl
  rw [hbit]
  cases halways : getFlag s.p .always with
  | true => exact validateState_eq_nil_iff.2 halways
  | false => exact validateState_of_always_false halways

/-- Settles O54: the violation list reads no field of the model's own, and the answer is all that VALIDATE writes. -/
theorem validateAnswers : Obligations.ValidateAnswers := fun _ _ h =>
  ⟨_, step_eq_runCommand h, rfl, rfl, rfl, rfl⟩

/-! ## POWER_ON (R300) -/

/-- The fresh status byte 0x20 is the Always flag alone. -/
theorem getFlag_freshFields_always : getFlag freshFields.p .always = true := by decide

/-- Settles O48: no byte is listed, no command waits, and the fresh status byte has the Always flag. -/
theorem resetMeetsInvariant : Obligations.ResetMeetsInvariant :=
  ⟨⟨.nil, List.forall_mem_nil _⟩, getFlag_freshFields_always, List.forall_mem_nil _⟩

/-- Settles O50: the fresh fields are loaded, and their status byte passes validation. -/
theorem powerOnFresh : Obligations.PowerOnFresh := fun _ _ h =>
  ⟨_, step_eq_runCommand h, rfl, rfl, rfl, rfl, rfl, rfl, rfl, rfl, rfl,
    validateState_eq_nil_iff.2 getFlag_freshFields_always⟩

/-! ## RESET (R303, R304) -/

/-- RESET with both vector bytes read loads PC from them. -/
theorem resetCommand_of_ok {s s' : State} {target : Addr} (h : memRead16 0xFFFC s = .ok target s') :
    resetCommand s = .next (respondOnly (some (.reset .continues)) (s'.setPc target)) := by
  rw [resetCommand, h]

/-- RESET with a vector read faulting answers that fault and loads nothing. -/
theorem resetCommand_of_fault {s s' : State} {a : Addr} {k : AccessKind} (h : memRead16 0xFFFC s = .fault a k s') :
    resetCommand s = .next (respondOnly (some (.reset (.memoryFault a k))) s') := by
  rw [resetCommand, h]

/-- Settles O51: the vector is one 16-bit read, and nothing of the state decides whether it is loaded. -/
theorem resetLoadsVector : Obligations.ResetLoadsVector := by
  intro s rest lo hi h hlo hhi
  have hread := memRead16_value (s := { s with commands := rest }) hlo hhi
  rw [State.record_record] at hread
  exact ⟨_, (step_eq_runCommand h).trans (resetCommand_of_ok hread), hiLo_toNat hi lo, ⟨rfl, rfl, rfl, rfl⟩, rfl, rfl,
    rfl, rfl⟩

/-- Settles O52: the fault of the 16-bit read at its first byte, and at its second. -/
theorem resetVectorFault : Obligations.ResetVectorFault := by
  intro s rest h
  refine ⟨fun hfault => ?_, fun lo hlo hfault => ?_⟩
  · have hread := memRead16_first_fault (s := { s with commands := rest }) hfault
    exact ⟨_, (step_eq_runCommand h).trans (resetCommand_of_fault hread), rfl, rfl, rfl, rfl⟩
  · have hread := memRead16_second_fault (s := { s with commands := rest }) hlo hfault
    rw [State.record_record] at hread
    exact ⟨_, (step_eq_runCommand h).trans (resetCommand_of_fault hread), rfl, rfl, rfl, rfl⟩

/-! ## Requests are answered where no device stands in the memory map (R313) -/

/-- No region of the memory map is a device: the only kind of memory that may leave a request unanswered. -/
def State.NoDevice (s : State) : Prop := ∀ r ∈ s.regions, r.kind ≠ .device

theorem kindIn_ne_device {rs : List Region} (h : ∀ r ∈ rs, r.kind ≠ .device) (a : Addr) : kindIn rs a ≠ .device := by
  induction rs with
  | nil => exact nofun
  | cons r rs ih =>
    obtain ⟨hr, hrs⟩ := List.forall_mem_cons.1 h
    rw [kindIn]
    split
    · exact hr
    · exact ih hrs

theorem State.NoDevice.readAnswer_ne_silent {s : State} (h : s.NoDevice) (a : Addr) : s.readAnswer a ≠ .silent := by
  unfold State.readAnswer
  cases hk : s.kindAt a with
  | ram | readOnly | unmapped => exact nofun
  | unreliable => dsimp only; split <;> exact nofun
  | device => exact absurd hk (kindIn_ne_device h a)

theorem State.NoDevice.writeAnswer_ne_silent {s : State} (h : s.NoDevice) (a : Addr) (v : Byte) :
    s.writeAnswer a v ≠ .silent := by
  unfold State.writeAnswer
  cases hk : s.kindAt a with
  | ram | readOnly | unmapped => exact nofun
  | unreliable => dsimp only; split <;> exact nofun
  | device => exact absurd hk (kindIn_ne_device h a)

/-- The requests were all answered, with values or a fault, and there is still no device in the map. -/
inductive Result.Answered {α : Type} : Result α → Prop where
  | ok (v : α) {s : State} (h : s.NoDevice) : Answered (.ok v s)
  | fault (a : Addr) (k : AccessKind) {s : State} (h : s.NoDevice) : Answered (.fault a k s)

theorem Result.Answered.andThen {α β : Type} {r : Result α} {f : α → State → Result β} (hr : r.Answered)
    (hf : ∀ v s, s.NoDevice → (f v s).Answered) : (r.andThen f).Answered := by
  cases hr with
  | ok v h => exact hf v _ h
  | fault a k h => exact .fault a k h

theorem State.NoDevice.memRead_answered {s : State} (h : s.NoDevice) (a : Addr) : (memRead a s).Answered := by
  rcases memRead_cases a s with ⟨b, -, e⟩ | ⟨-, e⟩ | ⟨hsilent, -⟩
  · exact e ▸ .ok b h
  · exact e ▸ .fault a .read h
  · exact absurd hsilent (h.readAnswer_ne_silent a)

theorem State.NoDevice.memWrite_answered {s : State} (h : s.NoDevice) (a : Addr) (v : Byte) :
    (memWrite a v s).Answered := by
  rcases memWrite_cases a v s with ⟨-, e⟩ | ⟨-, e⟩ | ⟨hsilent, -⟩
  · exact e ▸ .ok () h
  · exact e ▸ .fault a .write h
  · exact absurd hsilent (h.writeAnswer_ne_silent a v)

theorem State.NoDevice.memRead16_answered {s : State} (h : s.NoDevice) (a : Addr) : (memRead16 a s).Answered :=
  (h.memRead_answered a).andThen fun lo _ h' =>
    (h'.memRead_answered (a + 1)).andThen fun hi _ h'' => .ok (hiLo hi lo) h''

theorem State.NoDevice.resolveValue_answered {s : State} (h : s.NoDevice) (m : Source) :
    (resolveValue m s).Answered := by
  cases m with
  | immediate v => exact .ok v h
  | zeroPage ea => exact h.memRead_answered ea
  | absolute ea => exact h.memRead_answered ea

theorem State.NoDevice.fetchOperand_answered {s : State} (h : s.NoDevice) (sh : Shape) :
    (fetchOperand sh s).Answered := by
  cases sh with
  | implied i => exact .ok i h
  | immediate make | zeroPage make | relative make => exact (h.memRead_answered (s.pc + 1)).andThen fun _ _ => .ok _
  | absolute make => exact (h.memRead16_answered (s.pc + 1)).andThen fun _ _ => .ok _

/-! ## Every command answers (R313, R314) -/

/-- There is a next state. -/
def Answers (o : Host.Outcome State Fault Refusal) : Prop := ∃ t, o = .next t

/-- An instruction's last request, once answered, ends it in a next state if the value does. -/
theorem Result.Answered.finish {α : Type} {r : Result α} {f : α → State → Host.Outcome State Fault Refusal}
    (hr : r.Answered) (hf : ∀ v s, s.NoDevice → Answers (f v s)) : Answers (r.finish f) := by
  cases hr with
  | ok v h => exact hf v _ h
  | fault a k h => exact ⟨_, rfl⟩

theorem State.NoDevice.loadRegister_answers {s : State} (h : s.NoDevice) (r : Reg) (m : Source) :
    Answers (loadRegister r m s) :=
  (h.resolveValue_answered m).finish fun _ _ _ => ⟨_, rfl⟩

theorem State.NoDevice.storeRegister_answers {s : State} (h : s.NoDevice) (r : Reg) (m : Dest) :
    Answers (storeRegister r m s) :=
  (h.memWrite_answered m.address (s.reg r)).finish fun _ _ _ => ⟨_, rfl⟩

theorem State.NoDevice.exec_answers {s : State} (h : s.NoDevice) (i : Instr) : Answers (exec i s) := by
  cases exec_cases i s with
  | immediateLoad r v hi he => exact he ▸ h.loadRegister_answers r (.immediate v)
  | memoryLoad r m ea hi hm he => exact he ▸ h.loadRegister_answers r m
  | store r m hi he => exact he ▸ h.storeRegister_answers r m
  | branch f e off he => exact ⟨_, he.symm⟩
  | flagOp f b hi he => exact ⟨_, he.symm⟩

/-- The answer to the opcode fetch, the validation and the opcode decide what the STEP comes to (R265). -/
theorem State.NoDevice.stepCommand_answers {s : State} (h : s.NoDevice) : Answers (stepCommand s) := by
  cases hop : s.readAnswer s.pc with
  | silent => exact absurd hop (h.readAnswer_ne_silent s.pc)
  | fault => exact ⟨_, stepCommand_fetchFault hop⟩
  | value op =>
    cases hv : getFlag s.p .always with
    | false => exact ⟨_, stepCommand_corrupted hop hv⟩
    | true =>
      cases hsh : shapeOf op with
      | none => exact ⟨_, stepCommand_unknown hop hv hsh⟩
      | some sh =>
        have hin : (s.inStep op []).NoDevice := h
        rw [stepCommand_known hop hv hsh]
        exact (hin.fetchOperand_answered sh).finish fun i _ ht => ht.exec_answers i

theorem State.NoDevice.resetCommand_answers {s : State} (h : s.NoDevice) : Answers (resetCommand s) := by
  have hread := h.memRead16_answered 0xFFFC
  generalize hr : memRead16 0xFFFC s = r at hread
  cases hread with
  | ok target _ => exact ⟨_, resetCommand_of_ok hr⟩
  | fault a k _ => exact ⟨_, resetCommand_of_fault hr⟩

theorem State.NoDevice.runCommand_answers {s : State} (h : s.NoDevice) (c : Command) : Answers (runCommand c s) := by
  cases c with
  | step => exact h.stepCommand_answers
  | reset => exact h.resetCommand_answers
  | powerOn | validate | snapshotLoad r | snapshotRead => exact ⟨_, rfl⟩

/-! ## No command is refused -/

/-- An instruction is refused at its last request only if its value is. -/
theorem Result.finish_ne_refused {α : Type} (r : Result α) {f : α → State → Host.Outcome State Fault Refusal}
    {e : Refusal} (hf : ∀ v s, f v s ≠ .refused e) : r.finish f ≠ .refused e := by
  cases r with
  | ok v s => exact hf v s
  | fault a k s => exact nofun
  | stuck x => exact nofun

theorem loadRegister_ne_refused (r : Reg) (m : Source) (s : State) (e : Refusal) : loadRegister r m s ≠ .refused e :=
  (resolveValue m s).finish_ne_refused fun _ _ => nofun

theorem storeRegister_ne_refused (r : Reg) (m : Dest) (s : State) (e : Refusal) : storeRegister r m s ≠ .refused e :=
  (memWrite m.address (s.reg r) s).finish_ne_refused fun _ _ => nofun

theorem exec_ne_refused (i : Instr) (s : State) (e : Refusal) : exec i s ≠ .refused e := by
  cases exec_cases i s with
  | immediateLoad r v hi he => exact he ▸ loadRegister_ne_refused r (.immediate v) s e
  | memoryLoad r m ea hi hm he => exact he ▸ loadRegister_ne_refused r m s e
  | store r m hi he => exact he ▸ storeRegister_ne_refused r m s e
  | branch f b off he => rw [← he]; exact nofun
  | flagOp f b hi he => rw [← he]; exact nofun

theorem stepCommand_ne_refused (s : State) (e : Refusal) : stepCommand s ≠ .refused e := by
  cases stepCommand_cases s with
  | stuck a ho => rw [ho]; exact nofun
  | fetchFault hr ho => rw [ho]; exact nofun
  | corrupted op hr hv ho => rw [ho]; exact nofun
  | unknown op hr hv hs ho => rw [ho]; exact nofun
  | operandFault op a l hr hv ho => rw [ho]; exact nofun
  | run op i l hr hv ho => rw [ho]; exact exec_ne_refused i _ e

theorem resetCommand_ne_refused (s : State) (e : Refusal) : resetCommand s ≠ .refused e := by
  unfold resetCommand
  split <;> exact nofun

theorem runCommand_ne_refused (c : Command) (s : State) (e : Refusal) : runCommand c s ≠ .refused e := by
  cases c with
  | step => exact stepCommand_ne_refused s e
  | reset => exact resetCommand_ne_refused s e
  | powerOn | validate | snapshotLoad r | snapshotRead => exact nofun

/-- Settles O28: taking the command off the host's list leaves the memory map, under which every request of the command
is answered; and no command has an outcome that refuses. -/
theorem everyCommandAnswers : Obligations.EveryCommandAnswers := by
  refine ⟨fun s hs => ?_, fun s e => runCommand_ne_refused _ _ e⟩
  have htaken : (nextCommand s).2.NoDevice := by rw [nextCommand_snd]; exact hs
  exact htaken.runCommand_answers (nextCommand s).1

/-! ## The outcome of a STEP in the record of a run (R315) -/

theorem loadRegister_response {r : Reg} {m : Source} {s t : State} (h : loadRegister r m s = .next t) :
    t.response = some (.step .continues) ∨ ∃ a k, t.response = some (.step (.memoryFault a k)) := by
  rcases loadRegister_next h with ⟨v, s', -, rfl⟩ | ⟨a, k, s', -, rfl⟩
  · exact .inl rfl
  · exact .inr ⟨a, k, rfl⟩

theorem storeRegister_response {r : Reg} {m : Dest} {s t : State} (h : storeRegister r m s = .next t) :
    t.response = some (.step .continues) ∨ ∃ a k, t.response = some (.step (.memoryFault a k)) := by
  rcases storeRegister_next h with ⟨s', -, rfl⟩ | ⟨a, k, s', -, rfl⟩
  · exact .inl rfl
  · exact .inr ⟨a, k, rfl⟩

/-- An instruction that answers ends with Continue or MemoryFault. -/
theorem exec_response {i : Instr} {s t : State} (h : exec i s = .next t) :
    t.response = some (.step .continues) ∨ ∃ a k, t.response = some (.step (.memoryFault a k)) := by
  cases exec_cases i s with
  | immediateLoad r v hi he => exact loadRegister_response (he.trans h)
  | memoryLoad r m ea hi hm he => exact loadRegister_response (he.trans h)
  | store r m hi he => exact storeRegister_response (he.trans h)
  | branch f b off he => rw [branch_next (he.trans h)]; exact .inl rfl
  | flagOp f b hi he => rw [flagOp_next (he.trans h)]; exact .inl rfl

/-- A STEP that ends with UnknownOpcode leaves PC just past the opcode (R127). -/
theorem stepCommand_pc_of_unknownOpcode {s t : State} {op : Byte} (h : stepCommand s = .next t)
    (ht : t.response = some (.step (.unknownOpcode op))) : t.pc = s.pc + 1 := by
  cases stepCommand_cases s with
  | stuck a ho => rw [ho] at h; cases h
  | fetchFault hr ho => rw [ho] at h; cases h; cases ht
  | corrupted op' hr hv ho => rw [ho] at h; cases h; cases ht
  | unknown op' hr hv hs ho => rw [ho] at h; cases h; rfl
  | operandFault op' a l hr hv ho => rw [ho] at h; cases h; cases ht
  | run op' i l hr hv ho =>
    rcases exec_response (ho.symm.trans h) with hc | ⟨a, k, hf⟩
    · cases hc.symm.trans ht
    · cases hf.symm.trans ht

/-- Where nothing terminal came before, the outcome of a STEP is what the run has come to: Continue, which is not
recorded, has the status of a run still going. -/
theorem Run.status_next_of_step {halt : Addr} {r : Run} {t : State} {o : StepOutcome} (hanswered : r.stuck = false)
    (hnone : r.terminals = []) (h : step r.state = .next t) (ho : t.response = some (.step o)) :
    r.next.status halt = Terminal.status halt { outcome := o, pc := t.pc } := by
  rw [Run.next_of_step hanswered h, hnone, State.newTerminals_step ho, List.nil_append]
  split
  · next hc => subst hc; rfl
  · rfl

/-! ## The record only grows (92_eei D7) -/

theorem Run.terminals_prefix_next (r : Run) : r.terminals <+: r.next.terminals := by
  unfold Run.next
  split
  · exact List.prefix_rfl
  · split
    · exact List.prefix_append _ _
    · exact List.prefix_rfl
    · exact List.prefix_rfl

theorem Run.terminals_prefix_after (r : Run) (n : Nat) : r.terminals <+: (r.after n).terminals := by
  induction n with
  | zero => exact List.prefix_rfl
  | succ n ih => exact ih.trans (r.after n).terminals_prefix_next

/-- A run that has ended is classified by the first entry of its record, which a longer record has too. -/
theorem Run.status_of_prefix {halt : Addr} {r q : Run} (h : r.terminals <+: q.terminals)
    (hended : r.status halt ≠ .running) : q.status halt = r.status halt := by
  obtain ⟨later, hq⟩ := h
  unfold Run.status at hended ⊢
  rw [← hq]
  cases hr : r.terminals with
  | nil => rw [hr] at hended; exact absurd rfl hended
  | cons e es => rfl

/-- Settles O29: the outcome of the STEP is the first of the record, an UnknownOpcode having left PC one past its opcode,
and the record of an ended run keeps its first entry. -/
theorem runEndsAtHaltAddress : Obligations.RunEndsAtHaltAddress := by
  refine ⟨fun halt r t hanswered hnone hnext h => ?_, fun halt r n => ?_⟩
  · have hstatus {o : StepOutcome} (ho : t.response = some (.step o)) :
        r.next.status halt = Terminal.status halt { outcome := o, pc := t.pc } :=
      Run.status_next_of_step hanswered hnone h ho
    refine ⟨congrArg Run.state (Run.next_of_step hanswered h), hstatus, fun op ho => ?_, fun vs => hstatus,
      fun a k => hstatus⟩
    rw [step_eq_stepCommand hnext] at h
    have hpc : t.pc - 1 = r.state.pc := by
      rw [stepCommand_pc_of_unknownOpcode h ho]
      exact BitVec.add_sub_cancel _ _
    rw [hstatus ho, Terminal.status, hpc]
  · exact ⟨Run.status_of_prefix (r.terminals_prefix_after n), r.terminals_prefix_after n⟩

end Sys2Proof.Machine
end
